-- ==== Sys2Proof/Word.lean ====
section
/-! DEFINITION. The widths of the CHIP-8 CPU execute engine (spec/00_scope.md R5, R8): all values are unsigned bit
strings, bit 0 the least significant, and register and key numbers are numbers below 16. -/

namespace Sys2Proof

/-- An 8-bit value: a general register, a timer, a memory byte (R5 `XLEN`, R20, R32). -/
abbrev Byte := BitVec 8

/-- A 16-bit value: pc, I, a stack entry, an instruction word (R5 `PCLEN`, `ILEN`, `STACK_WIDTH`, `ILEN_INSTR`). -/
abbrev Word := BitVec 16

/-- The number of a general register V0..VF (R20): the value of an `X` or `Y` field. -/
abbrev Reg := Fin 16

/-- The index of a key, 0x0..0xF (R29). -/
abbrev Key := Fin 16

end Sys2Proof
end

