-- ==== Sys2Proof/Machine/Flags.lean ====
section
/-! DEFINITION. Every flag computation of the hardware (spec/10_state.md R39, spec/41_alu.md R120): VF is the only flag, and
its six writers compute it from the latched operand values (spec/30_encoding.md R74). -/

namespace Sys2Proof.Machine

/-- VF, the register that is also the flag (R39). -/
def vf : Reg := 15

/-- A flag as the register value 0 or 1 (R39). -/
def flagByte (f : Bool) : Byte := if f then 1 else 0

/-- 8XY4: the unsigned sum exceeds 255 (R127). -/
def carry (a b : Byte) : Bool := decide (255 < a.toNat + b.toNat)

/-- 8XY5 and 8XY7: the minuend is strictly greater than the subtrahend, so equal operands give 0 (R128, R130, C2). -/
def noBorrow (minuend subtrahend : Byte) : Bool := decide (subtrahend.toNat < minuend.toNat)

/-- 8XY6: `vy & 1`, the bit shifted out (R129). -/
def shiftedOutRight (b : Byte) : Bool := b.getLsbD 0

/-- 8XYE: bit 7 of vy, the bit shifted out (R131). -/
def shiftedOutLeft (b : Byte) : Bool := b.getLsbD 7

end Sys2Proof.Machine
end

