-- ==== Sys2Proof/Syntax.lean ====
section
/-! DEFINITION. The instructions: one constructor per row of spec/opcode_table.json (spec/30_encoding.md R76, R83), with
the fields of R72 as arguments. A row's bits that decode does not examine are carried, so that no bit of a word is lost. -/

namespace Sys2Proof

/-- The 35 instructions of R76 and the catch-all `UNDEF` of R83. `x`, `y` are register numbers, `nn` the 8-bit and `nnn`
the 12-bit constant, `n` the sprite height, `low` the unexamined low nibble of 5XYN and 9XYN (R81). -/
inductive Instr where
  | cls
  | ret
  | sys (nnn : BitVec 12)
  | jp (nnn : BitVec 12)
  | call (nnn : BitVec 12)
  | seImm (x : Reg) (nn : Byte)
  | sneImm (x : Reg) (nn : Byte)
  | seReg (x y : Reg) (low : BitVec 4)
  | ldImm (x : Reg) (nn : Byte)
  | addImm (x : Reg) (nn : Byte)
  | ldReg (x y : Reg)
  | or (x y : Reg)
  | and (x y : Reg)
  | xor (x y : Reg)
  | addReg (x y : Reg)
  | sub (x y : Reg)
  | shr (x y : Reg)
  | subn (x y : Reg)
  | shl (x y : Reg)
  | sneReg (x y : Reg) (low : BitVec 4)
  | ldI (nnn : BitVec 12)
  | jpV0 (nnn : BitVec 12)
  | rnd (x : Reg) (nn : Byte)
  | drw (x y : Reg) (n : BitVec 4)
  | skp (x : Reg)
  | sknp (x : Reg)
  | ldVxDt (x : Reg)
  | ldVxK (x : Reg)
  | ldDtVx (x : Reg)
  | ldStVx (x : Reg)
  | addI (x : Reg)
  | ldF (x : Reg)
  | ldB (x : Reg)
  | ldMemVx (x : Reg)
  | ldVxMem (x : Reg)
  | undef (w : Word)
  deriving DecidableEq, Repr

end Sys2Proof
end

