-- ==== Sys2Proof/WellFormed.lean ====
section
/-! DEFINITION. Which terms of `Instr` stand for an instruction word: two rows of the table exclude words that other rows
take first (spec/30_encoding.md R77 to R80). -/

namespace Sys2Proof

/-- The words R78, R79 and R80 list: `8XYN` with N in 8, 9, A, B, C, D, F; `EXNN` with NN neither 9E nor A1; `FXNN` with NN
none of the nine defined selectors. -/
def isUndefWord (w : Word) : Bool :=
  let family := w.toNat / 4096
  let n := w.toNat % 16
  let nn := w.toNat % 256
  (family == 0x8 && [0x8, 0x9, 0xA, 0xB, 0xC, 0xD, 0xF].contains n)
    || (family == 0xE && !([0x9E, 0xA1].contains nn))
    || (family == 0xF && !([0x07, 0x0A, 0x15, 0x18, 0x1E, 0x29, 0x33, 0x55, 0x65].contains nn))

/-- A term is well formed when some word decodes to it. `SYS` excludes the exact words of `CLS` and `RET` (R77); `UNDEF`
holds only words that no other row matches. Every other operand may take every value of its field (R73). -/
def Instr.wf : Instr → Bool
  | .cls => true
  | .ret => true
  | .sys nnn => nnn != 0x0E0 && nnn != 0x0EE
  | .jp _ => true
  | .call _ => true
  | .seImm _ _ => true
  | .sneImm _ _ => true
  | .seReg _ _ _ => true
  | .ldImm _ _ => true
  | .addImm _ _ => true
  | .ldReg _ _ => true
  | .or _ _ => true
  | .and _ _ => true
  | .xor _ _ => true
  | .addReg _ _ => true
  | .sub _ _ => true
  | .shr _ _ => true
  | .subn _ _ => true
  | .shl _ _ => true
  | .sneReg _ _ _ => true
  | .ldI _ => true
  | .jpV0 _ => true
  | .rnd _ _ => true
  | .drw _ _ _ => true
  | .skp _ => true
  | .sknp _ => true
  | .ldVxDt _ => true
  | .ldVxK _ => true
  | .ldDtVx _ => true
  | .ldStVx _ => true
  | .addI _ => true
  | .ldF _ => true
  | .ldB _ => true
  | .ldMemVx _ => true
  | .ldVxMem _ => true
  | .undef w => isUndefWord w

end Sys2Proof
end

