-- ==== Sys2Proof/Decode.lean ====
section
/-! DEFINITION. Decode, from bytes to an instruction or a named rejection, and the encoder, both written from
spec/30_encoding.md (R71 to R81) and the fetch byte order of spec/20_memory.md R52. -/

namespace Sys2Proof

/-- `op[15:12]`, the family nibble (R11). -/
def opFamily (w : Word) : BitVec 4 := w.extractLsb' 12 4

/-- `X = op[11:8]` (R11). -/
def opX (w : Word) : Reg := (w.extractLsb' 8 4).toFin

/-- `Y = op[7:4]` (R11). -/
def opY (w : Word) : Reg := (w.extractLsb' 4 4).toFin

/-- `N = op[3:0]` (R11). -/
def opN (w : Word) : BitVec 4 := w.extractLsb' 0 4

/-- `NN = op[7:0]` (R11). -/
def opNN (w : Word) : Byte := w.extractLsb' 0 8

/-- `NNN = op[11:0]` (R11). -/
def opNNN (w : Word) : BitVec 12 := w.extractLsb' 0 12

/-- Family 0x0: two exact words, every other word is SYS (R77). -/
def decodeFamily0 (w : Word) : Instr :=
  if w = 0x00E0 then .cls else if w = 0x00EE then .ret else .sys (opNNN w)

/-- Family 0x8: the selector is N; N in 8, 9, A, B, C, D, F is UNDEF (R75, R78). -/
def decodeFamily8 (w : Word) : Instr :=
  match (opN w).toNat with
  | 0x0 => .ldReg (opX w) (opY w)
  | 0x1 => .or (opX w) (opY w)
  | 0x2 => .and (opX w) (opY w)
  | 0x3 => .xor (opX w) (opY w)
  | 0x4 => .addReg (opX w) (opY w)
  | 0x5 => .sub (opX w) (opY w)
  | 0x6 => .shr (opX w) (opY w)
  | 0x7 => .subn (opX w) (opY w)
  | 0xE => .shl (opX w) (opY w)
  | _ => .undef w

/-- Family 0xE: the selector is NN (R75, R79). -/
def decodeFamilyE (w : Word) : Instr :=
  match (opNN w).toNat with
  | 0x9E => .skp (opX w)
  | 0xA1 => .sknp (opX w)
  | _ => .undef w

/-- Family 0xF: the selector is NN (R75, R80). -/
def decodeFamilyF (w : Word) : Instr :=
  match (opNN w).toNat with
  | 0x07 => .ldVxDt (opX w)
  | 0x0A => .ldVxK (opX w)
  | 0x15 => .ldDtVx (opX w)
  | 0x18 => .ldStVx (opX w)
  | 0x1E => .addI (opX w)
  | 0x29 => .ldF (opX w)
  | 0x33 => .ldB (opX w)
  | 0x55 => .ldMemVx (opX w)
  | 0x65 => .ldVxMem (opX w)
  | _ => .undef w

/-- `Decode(op)` of R75: total on all 65536 words. The last arm is family 0xF, the only nibble value left. -/
def decodeWord (w : Word) : Instr :=
  match (opFamily w).toNat with
  | 0x0 => decodeFamily0 w
  | 0x1 => .jp (opNNN w)
  | 0x2 => .call (opNNN w)
  | 0x3 => .seImm (opX w) (opNN w)
  | 0x4 => .sneImm (opX w) (opNN w)
  | 0x5 => .seReg (opX w) (opY w) (opN w)
  | 0x6 => .ldImm (opX w) (opNN w)
  | 0x7 => .addImm (opX w) (opNN w)
  | 0x8 => decodeFamily8 w
  | 0x9 => .sneReg (opX w) (opY w) (opN w)
  | 0xA => .ldI (opNNN w)
  | 0xB => .jpV0 (opNNN w)
  | 0xC => .rnd (opX w) (opNN w)
  | 0xD => .drw (opX w) (opY w) (opN w)
  | 0xE => decodeFamilyE w
  | _ => decodeFamilyF w

/-- Why bytes hold no instruction. Every 16-bit word decodes (R75), so the one rejection is that there is no whole word. -/
inductive DecodeError where
  /-- Fewer than two bytes: an instruction is exactly two bytes long (R71). -/
  | truncated
  deriving DecidableEq, Repr

/-- `a ++ b` of two fetched bytes: the byte at the lower address holds opcode bits 15..8 (R52). -/
def wordOfBytes (high low : Byte) : Word := high ++ low

/-- The instruction that starts a byte sequence, and the bytes after it (R52, R71). -/
def decode : List Byte → Except DecodeError (Instr × List Byte)
  | high :: low :: rest => .ok (decodeWord (wordOfBytes high low), rest)
  | [_] => .error .truncated
  | [] => .error .truncated

/-- Layout `NNN` of R72: family and a 12-bit address. -/
def packNNN (family : BitVec 4) (nnn : BitVec 12) : Word := family ++ nnn

/-- Layouts `XNN` and `X` of R72: family, register, constant or selector byte. -/
def packXNN (family : BitVec 4) (x : Reg) (nn : Byte) : Word := family ++ BitVec.ofFin (w := 4) x ++ nn

/-- Layouts `XY` and `XYN` of R72: family, two registers, sub-opcode or operand nibble. -/
def packXYN (family : BitVec 4) (x y : Reg) (n : BitVec 4) : Word :=
  family ++ BitVec.ofFin (w := 4) x ++ BitVec.ofFin (w := 4) y ++ n

/-- The word of an instruction, row by row of R76. -/
def encode : Instr → Word
  | .cls => 0x00E0
  | .ret => 0x00EE
  | .sys nnn => packNNN 0x0 nnn
  | .jp nnn => packNNN 0x1 nnn
  | .call nnn => packNNN 0x2 nnn
  | .seImm x nn => packXNN 0x3 x nn
  | .sneImm x nn => packXNN 0x4 x nn
  | .seReg x y low => packXYN 0x5 x y low
  | .ldImm x nn => packXNN 0x6 x nn
  | .addImm x nn => packXNN 0x7 x nn
  | .ldReg x y => packXYN 0x8 x y 0x0
  | .or x y => packXYN 0x8 x y 0x1
  | .and x y => packXYN 0x8 x y 0x2
  | .xor x y => packXYN 0x8 x y 0x3
  | .addReg x y => packXYN 0x8 x y 0x4
  | .sub x y => packXYN 0x8 x y 0x5
  | .shr x y => packXYN 0x8 x y 0x6
  | .subn x y => packXYN 0x8 x y 0x7
  | .shl x y => packXYN 0x8 x y 0xE
  | .sneReg x y low => packXYN 0x9 x y low
  | .ldI nnn => packNNN 0xA nnn
  | .jpV0 nnn => packNNN 0xB nnn
  | .rnd x nn => packXNN 0xC x nn
  | .drw x y n => packXYN 0xD x y n
  | .skp x => packXNN 0xE x 0x9E
  | .sknp x => packXNN 0xE x 0xA1
  | .ldVxDt x => packXNN 0xF x 0x07
  | .ldVxK x => packXNN 0xF x 0x0A
  | .ldDtVx x => packXNN 0xF x 0x15
  | .ldStVx x => packXNN 0xF x 0x18
  | .addI x => packXNN 0xF x 0x1E
  | .ldF x => packXNN 0xF x 0x29
  | .ldB x => packXNN 0xF x 0x33
  | .ldMemVx x => packXNN 0xF x 0x55
  | .ldVxMem x => packXNN 0xF x 0x65
  | .undef w => w

/-- The byte at the lower address of a word as memory holds it (R52, R72 "In byte terms"). -/
def wordHigh (w : Word) : Byte := w.extractLsb' 8 8

/-- The byte at the higher address of a word as memory holds it (R52). -/
def wordLow (w : Word) : Byte := w.extractLsb' 0 8

/-- A word as memory holds it: high byte at the lower address (R52, R84). -/
def bytesOfWord (w : Word) : List Byte := [wordHigh w, wordLow w]

/-- The two bytes of an instruction as memory holds them. -/
def encodeBytes (i : Instr) : List Byte := bytesOfWord (encode i)

/-- The word whose low `nbits` bits are those of `w`, the bits above them zero: the opcode table's numbering is that of the
16-bit opcode itself, bit 0 least significant (R8). -/
def tableWord (nbits w : Nat) : Word := BitVec.ofNat 16 (w % 2 ^ nbits)

/-- The instruction the decoder reads from a table row's bits, laid out in memory order. A row of more than 16 bits is no
instruction of this hardware (R71). -/
def decodeTableWord (nbits w : Nat) : Option Instr :=
  if nbits ≤ 16 then
    match decode (bytesOfWord (tableWord nbits w)) with
    | .ok (i, []) => some i
    | .ok (_, _ :: _) => none
    | .error _ => none
  else none

end Sys2Proof
end

