-- ==== Sys2Proof/Config.lean ====
section
/-! DEFINITION. What is fixed for a whole run (spec/00_scope.md R6, spec/10_state.md R33), and the free values. The
configuration is plain data and stands in `State`, so every statement about a state holds for every configuration. -/

namespace Sys2Proof

/-- The configuration inputs that the machine takes at `Reset` (R6, R33, R230). "They behave as read-only control registers
with no address: no instruction or transaction reads them out or changes them." -/
structure Config where
  /-- `ROM_START`, a 12-bit address: where a ROM is loaded and where pc starts. -/
  romStart : BitVec 12
  /-- `FONT_START`, a 12-bit address: the font region is `[FONT_START, FONT_START + 80)`. OPEN in the spec. -/
  fontStart : BitVec 12
  /-- `AUTO_RELEASE`: changes EX9E, EXA1 and FX0A only. -/
  autoRelease : Bool
  /-- `FONT_DATA`, 80 bytes: the initial contents of the font region. OPEN in the spec. -/
  fontData : Vector Byte 80
  deriving DecidableEq, Repr

/-- The constraint of R230 on the configuration: `ROM_START <= 4096 - 352 = 3744` and `FONT_START + 80 <= 4096`. -/
def Config.valid (c : Config) : Bool :=
  decide (c.romStart.toNat ≤ 3744) && decide (c.fontStart.toNat + 80 ≤ 4096)

/-- FREE VALUE. The `n`-th random draw a CXNN consumes: the `rnd` argument of the `Step` that executes it (R4, R34, R132),
"any value 0..255, under no law". It has no body, so nothing can be proved of its values. Assumption log 1. -/
opaque Config.randomByte : Nat → Byte

/-- The conventional font table of spec/93_implementation_defined.md G3, glyphs 0 to 7. PRESUMED: general knowledge, not
in the source. Assumption log 3. -/
def Config.conventionalFontLow : List Byte :=
  [0xF0, 0x90, 0x90, 0x90, 0xF0,  0x20, 0x60, 0x20, 0x20, 0x70,
   0xF0, 0x10, 0xF0, 0x80, 0xF0,  0xF0, 0x10, 0xF0, 0x10, 0xF0,
   0x90, 0x90, 0xF0, 0x10, 0x10,  0xF0, 0x80, 0xF0, 0x10, 0xF0,
   0xF0, 0x80, 0xF0, 0x90, 0xF0,  0xF0, 0x10, 0x20, 0x40, 0x40]

/-- The conventional font table of G3, glyphs 8 to F. PRESUMED. Assumption log 3. -/
def Config.conventionalFontHigh : List Byte :=
  [0xF0, 0x90, 0xF0, 0x90, 0xF0,  0xF0, 0x90, 0xF0, 0x10, 0xF0,
   0xF0, 0x90, 0xF0, 0x90, 0x90,  0xE0, 0x90, 0xE0, 0x90, 0xE0,
   0xF0, 0x80, 0x80, 0x80, 0xF0,  0xE0, 0x90, 0x90, 0x90, 0xE0,
   0xF0, 0x80, 0xF0, 0x80, 0xF0,  0xF0, 0x80, 0xF0, 0x80, 0x80]

/-- The one configuration `State.reset` is built with: `ROM_START` is the source's default 0x0200 and `AUTO_RELEASE` its
advice for new input backends; `FONT_START` 0x050 and the glyph bytes are OPEN in the spec and only instantiated here, as
its own test vectors do (DESIGN CHOICE and PRESUMED, assumption logs 2 and 3). -/
def Config.atReset : Config where
  romStart := 0x200
  fontStart := 0x050
  autoRelease := false
  fontData := ⟨(Config.conventionalFontLow ++ Config.conventionalFontHigh).toArray, by decide⟩

end Sys2Proof
end

