-- ==== Sys2Proof/Machine/State.lean ====
section
/-! DEFINITION. The architectural state of the engine as plain data (spec/10_state.md R20 to R37), the reasons a step can
stop (spec/60_exceptions.md R208), and the state after reset (R36, spec/70_reset_and_hazards.md R230). -/

namespace Sys2Proof.Machine

/-- Why a transaction has no next state: the spec's UNSPECIFIED outcomes (R12, R208), "model it as a fault". All of them are
safe: the model stops where the engine may go on. -/
inductive Fault where
  /-- A fetch with pc > 0xFFE, or a DXYN, FX33, FX55 or FX65 with a byte above address 4095 (R51). Safe. -/
  | addressOutOfRange
  /-- EX9E or EXA1 with VX > 15 (R172, R173). Safe. -/
  | keyIndexOutOfRange
  /-- `LoadFont` or `LoadRom` after the first `Step` or `Tick` (R238). Raised by the load transactions only. Safe. -/
  | loadAfterRun
  /-- `Reset` with `ROM_START > 3744` or `FONT_START + 80 > 4096` (R230). Raised by the `Reset` transaction only. Safe. -/
  | badConfiguration
  deriving DecidableEq, Repr

/-- Why an instruction has no meaning here. -/
inductive Refusal where
  /-- An instruction of the opcode table whose meaning is not written yet: raised by `exec` alone; no arm does. Safe. -/
  | notModelled (mnemonic : String)
  deriving DecidableEq, Repr

/-- The error-report output of a step (R202, R203). -/
inductive Report where
  | noError
  | stackOverflow
  | stackUnderflow
  deriving DecidableEq, Repr

/-- The spec's codes for the reports (R202): 0, 1, 2. -/
def Report.code : Report → Nat
  | .noError => 0
  | .stackOverflow => 1
  | .stackUnderflow => 2

/-- Memory as the bytes that differ from the boot image, by strictly rising address: see `Memory.wf` in Machine/Ops.lean. -/
abbrev Memory := List Host.Cell

/-- The frame buffer: 32 rows, counted from the top, of 64 cells, counted from the left (R31); `disp[y][x]`. -/
abbrev Display := Vector (Vector Bool 64) 32

/-- The state of the engine (R20 to R37) and the model's own bookkeeping (the last three fields). -/
structure State where
  /-- `ROM_START`, `FONT_START`, `AUTO_RELEASE`, `FONT_DATA`: constant for a run (R33, R6). -/
  cfg : Config
  /-- V0..VF, 8 bits each (R20); VF is also the flag (R39). -/
  v : Vector Byte 16
  /-- The index register I, 16 bits (R24). -/
  i : Word
  /-- The program counter, 16 bits (R22). -/
  pc : Word
  /-- The delay timer DT (R27). -/
  dt : Byte
  /-- The sound timer ST (R28). -/
  st : Byte
  /-- The live call-stack entries, the most recently pushed first (R25); `SP` is their number (R26). -/
  stack : List Word
  /-- The 16 key flags, `true` means pressed (R29). -/
  keys : Vector Bool 16
  /-- The latch `last_pressed`; `none` is `NONE` (R30). -/
  lastPressed : Option Key
  /-- The latch `last_released` (R30). -/
  lastReleased : Option Key
  /-- The frame buffer (R31). -/
  disp : Display
  /-- The 4096-byte memory (R32, R50). -/
  mem : Memory
  /-- `rom_size`, recorded by `LoadRom` (R34, R237). -/
  romSize : Nat
  /-- The error-report output of the latest `Step` (R203): an output, which no instruction reads. -/
  reportOut : Report
  /-- A `Step` or `Tick` has been issued since `Reset`: what R238 makes a load depend on. -/
  started : Bool
  /-- THE MODEL'S OWN: how many random draws have been consumed, the argument of `Config.randomByte`. -/
  draws : Nat
  deriving DecidableEq, Repr

/-- The state after `Reset` with configuration `c` and before any load (R36, R230): memory lists nothing, since what an
unlisted address reads as is the boot image. The zeros of V, I, DT, ST and disp are the spec's decision D3. -/
def State.resetWith (c : Config) : State where
  cfg := c
  v := Vector.replicate 16 0
  i := 0
  pc := c.romStart.setWidth 16
  dt := 0
  st := 0
  stack := []
  keys := Vector.replicate 16 false
  lastPressed := none
  lastReleased := none
  disp := Vector.replicate 32 (Vector.replicate 64 false)
  mem := []
  romSize := 0
  reportOut := .noError
  started := false
  draws := 0

/-- The machine right after reset, with the one configuration of `Config.atReset` (assumption logs 2 and 3). Statements use
`State.resetWith c` for every valid `c`. -/
def State.reset : State := State.resetWith Config.atReset

end Sys2Proof.Machine
end

