-- ==== Sys2Proof/Machine/Ops.lean ====
section
/-! DEFINITION. The named operations over memory, registers, stack, keys and frame buffer that every meaning is built from,
and the fetch. The hardware has no exception to take (spec/60_exceptions.md R200, R207): what it has instead, the reported
stack error, is the one shared operation `State.report`. -/

namespace Sys2Proof.Machine

/-! ## Memory as data (R32, R50 to R58) -/

/-- What address `a` holds at boot, and so what an address memory does not list reads as: "zero-initialized, font copied
in" (R32, R36, R56). -/
def bootByte (c : Config) (a : Nat) : Byte :=
  if h : c.fontStart.toNat ≤ a ∧ a < c.fontStart.toNat + 80 then c.fontData[a - c.fontStart.toNat] else 0

/-- The byte listed for an address, if one is. -/
def Memory.find : Memory → Nat → Option Byte
  | [], _ => none
  | (k, b) :: rest, a => if k = a then some b else Memory.find rest a

/-- The byte at an address: the listed one, else the boot byte. -/
def Memory.read (boot : Nat → Byte) (m : Memory) (a : Nat) : Byte := (Memory.find m a).getD (boot a)

/-- Lists a byte at an address, keeping the addresses strictly rising. -/
def Memory.put : Memory → Nat → Byte → Memory
  | [], a, b => [(a, b)]
  | (k, c) :: rest, a, b =>
    if a < k then (a, b) :: (k, c) :: rest
    else if a = k then (a, b) :: rest
    else (k, c) :: Memory.put rest a b

/-- Lists nothing at an address. -/
def Memory.drop : Memory → Nat → Memory
  | [], _ => []
  | (k, c) :: rest, a => if k = a then Memory.drop rest a else (k, c) :: Memory.drop rest a

/-- Stores a byte: an address that then holds its boot byte is not listed. -/
def Memory.write (boot : Nat → Byte) (m : Memory) (a : Nat) (b : Byte) : Memory :=
  if b = boot a then Memory.drop m a else Memory.put m a b

/-- Stores bytes at ascending addresses. -/
def Memory.writeAll (boot : Nat → Byte) : Memory → Nat → List Byte → Memory
  | m, _, [] => m
  | m, a, b :: rest => Memory.writeAll boot (Memory.write boot m a b) (a + 1) rest

/-- The listed addresses rise strictly and are all at least `low`. -/
def Memory.rising : Nat → Memory → Bool
  | _, [] => true
  | low, (k, _) :: rest => decide (low ≤ k) && Memory.rising (k + 1) rest

/-- The canonical form: addresses strictly rising and below 4096 (R50), and no entry equal to what its address reads as
when unlisted. Equal memories are then equal lists. -/
def Memory.wf (boot : Nat → Byte) (m : Memory) : Bool :=
  Memory.rising 0 m && m.all (fun e => decide (e.1 < 4096) && e.2 != boot e.1)

/-- Whether `count` bytes from `base`, addresses taken as natural numbers without wrap (R63), all exist (R51). No byte at
all is always in range, whatever the base. -/
def inMemory (base count : Nat) : Bool := count == 0 || decide (base + count ≤ 4096)

/-! ## The state's memory port -/

/-- The boot image of this state's configuration. -/
def State.boot (s : State) : Nat → Byte := bootByte s.cfg

/-- `MemRead(a, 1)` for an address in range (R10). Reading changes nothing (R55). -/
def State.byteAt (s : State) (a : Nat) : Byte := Memory.read s.boot s.mem a

/-- `MemWrite` of successive bytes from `a`, ascending, for addresses in range (R10, R55). -/
def State.storeBytes (s : State) (a : Nat) (bytes : List Byte) : State :=
  { s with mem := Memory.writeAll s.boot s.mem a bytes }

/-! ## Registers (R20 to R28) -/

/-- Read of V[r] (R10). -/
def State.reg (s : State) (r : Reg) : Byte := s.v[r.val]

/-- Write of V[r] (R10). No register is hardwired, none is read-only (R20). -/
def State.setReg (s : State) (r : Reg) (b : Byte) : State := { s with v := s.v.set r.val b }

/-- V0..VX loaded from ascending addresses at `base`, register `j` from `base + j` (R53, R146). -/
def State.loadRegs (s : State) (base : Nat) (x : Reg) : State :=
  { s with v := Vector.ofFn fun j => if j ≤ x then s.byteAt (base + j.val) else s.reg j }

/-- Write of I. -/
def State.setI (s : State) (w : Word) : State := { s with i := w }

/-- Write of pc. -/
def State.setPc (s : State) (w : Word) : State := { s with pc := w }

/-- Write of DT. -/
def State.setDT (s : State) (b : Byte) : State := { s with dt := b }

/-- Write of ST. -/
def State.setST (s : State) (b : Byte) : State := { s with st := b }

/-- The taken or untaken skip of R109: `pc <- (pc + 2) mod 65536` on the already advanced pc. -/
def State.skipIf (s : State) (taken : Bool) : State := if taken then s.setPc (s.pc + 2) else s

/-- FX0A's rewind onto its own address (R22, R174). -/
def State.rewind (s : State) : State := s.setPc (s.pc - 2)

/-- Supplies the next random draw: the counter moves on, so that every draw is a fresh free value (R34, R132). -/
def State.consumeDraw (s : State) : State := { s with draws := s.draws + 1 }

/-! ## The call stack (R25, R26) and the reports (R202, R203) -/

/-- `SP`, the stack depth. -/
abbrev State.sp (s : State) : Nat := s.stack.length

/-- `stack[j]` for a live index `j < SP`: entry 0 is the oldest (R25). -/
def State.stackEntry (s : State) (j : Nat) : Option Word := s.stack.reverse[j]?

/-- `stack[SP] <- w; SP <- SP + 1`. -/
def State.push (s : State) (w : Word) : State := { s with stack := w :: s.stack }

/-- `report <Error>`: drives the error-report output of this step and changes nothing else (R10, R203). -/
def State.report (s : State) (r : Report) : State := { s with reportOut := r }

/-- 2NNN's effect: overflow at a full stack is reported and nothing else happens; else the advanced pc is pushed and control
goes to the target (R26, R103). -/
def State.callTo (s : State) (target : Word) : State :=
  if s.sp < 16 then (s.push s.pc).setPc target else s.report .stackOverflow

/-- 00EE's effect: underflow at an empty stack is reported and nothing else happens; else the newest entry is popped into
pc (R26, R101). -/
def State.returnFromCall (s : State) : State :=
  match s.stack with
  | [] => s.report .stackUnderflow
  | top :: rest => { s with stack := rest, pc := top }

/-! ## Keys (R29, R30, R170, R171) -/

/-- `keys[k]`. -/
def State.key (s : State) (k : Key) : Bool := s.keys[k.val]

/-- `keys[k] <- true; last_pressed <- k` (R170). -/
def State.press (s : State) (k : Key) : State := { s with keys := s.keys.set k.val true, lastPressed := some k }

/-- `Release(k)`: `keys[k] <- false; last_released <- k`, external or synthesised (R171). -/
def State.release (s : State) (k : Key) : State := { s with keys := s.keys.set k.val false, lastReleased := some k }

/-- The synthesised release of auto-release mode, under a condition. -/
def State.autoRelease (s : State) (k : Key) (condition : Bool) : State :=
  if s.cfg.autoRelease && condition then s.release k else s

/-- `last_released <- NONE` (R174). -/
def State.consumeReleased (s : State) : State := { s with lastReleased := none }

/-- `last_pressed <- NONE` (R174). -/
def State.consumePressed (s : State) : State := { s with lastPressed := none }

/-! ## The frame buffer (R31, R160 to R163) -/

/-- The cell at column `x`, row `y`; false off the screen, where there is no cell. -/
def pixelAt (d : Display) (x y : Nat) : Bool := if h : x < 64 ∧ y < 32 then d[y][x] else false

/-- `disp[y][x] <- not disp[y][x]`. -/
def togglePixel (d : Display) (x y : Nat) : Display :=
  if h : x < 64 ∧ y < 32 then d.set y (d[y].set x (!d[y][x])) else d

/-- One set sprite bit at column `x`, row `y`: clipped off the screen, else an on-cell collides and the cell is toggled.
The pair is the frame buffer and the collision so far (R162). -/
def plot (acc : Display × Bool) (x y : Nat) : Display × Bool :=
  if x ≤ 63 ∧ y ≤ 31 then (togglePixel acc.1 x y, acc.2 || pixelAt acc.1 x y) else acc

/-- The sprite columns from a list of them: bit `7 - c` of the row is the pixel in column `c` (R161, R162). -/
def plotColumns (row : Byte) (px y : Nat) : List Nat → Display × Bool → Display × Bool
  | [], acc => acc
  | c :: rest, acc => plotColumns row px y rest (if row.getLsbD (7 - c) then plot acc (px + c) y else acc)

/-- One sprite row at row `y` of the screen. -/
def plotRow (row : Byte) (px y : Nat) (acc : Display × Bool) : Display × Bool :=
  plotColumns row px y [0, 1, 2, 3, 4, 5, 6, 7] acc

/-- The rows of a sprite, from screen row `y` downward (R161, R162). -/
def plotSprite (px : Nat) : List Byte → Nat → Display × Bool → Display × Bool
  | [], _, acc => acc
  | row :: rest, y, acc => plotSprite px rest (y + 1) (plotRow row px y acc)

/-- The cell at column `x`, row `y` of the state's frame buffer. -/
def State.pixel (s : State) (x y : Nat) : Bool := pixelAt s.disp x y

/-- Write of the frame buffer. -/
def State.setDisp (s : State) (d : Display) : State := { s with disp := d }

/-- All 2048 cells off (R160). -/
def blankDisplay : Display := Vector.replicate 32 (Vector.replicate 64 false)

/-! ## Fetch (R52, R70) -/

/-- `Fetch16(pc)`, big-endian; nothing where one of the two bytes lies beyond memory (R51). -/
def fetchWord (s : State) : Option Word :=
  if s.pc.toNat ≤ 0xFFE then some (wordOfBytes (s.byteAt s.pc.toNat) (s.byteAt (s.pc.toNat + 1))) else none

/-- What a step does before its instruction: the report output starts from `NoError`, pc is advanced (R70), and the run has
begun (R238). -/
def State.beginStep (s : State) : State := { s with reportOut := .noError, pc := s.pc + 2, started := true }

/-- A word placed where the next fetch reads it; nothing where that fetch is out of range. -/
def State.placeWord (s : State) (w : Word) : State :=
  if s.pc.toNat ≤ 0xFFE then s.storeBytes s.pc.toNat (bytesOfWord w) else s

end Sys2Proof.Machine
end

