-- ==== Sys2Proof/Machine/Alu.lean ====
section
/-! DEFINITION. The register load, arithmetic, logic, shift and random instructions (spec/41_alu.md). Operands are the values
before any write, and writes happen in the order each rule lists them (spec/30_encoding.md R74, decision D7, assumption
log 10): with X = F the later of the two writes stands. -/

namespace Sys2Proof.Machine

/-- 6XNN, load constant (R121). -/
def execLdImm (x : Reg) (nn : Byte) (s : State) : Host.Outcome State Fault Refusal := .next (s.setReg x nn)

/-- 7XNN, add constant, 8-bit wraparound, no flag (R122). -/
def execAddImm (x : Reg) (nn : Byte) (s : State) : Host.Outcome State Fault Refusal := .next (s.setReg x (s.reg x + nn))

/-- 8XY0, copy register (R123). -/
def execLdReg (x y : Reg) (s : State) : Host.Outcome State Fault Refusal := .next (s.setReg x (s.reg y))

/-- 8XY1, bitwise OR; VF is not written (R124). -/
def execOr (x y : Reg) (s : State) : Host.Outcome State Fault Refusal := .next (s.setReg x (s.reg x ||| s.reg y))

/-- 8XY2, bitwise AND; VF is not written (R125). -/
def execAnd (x y : Reg) (s : State) : Host.Outcome State Fault Refusal := .next (s.setReg x (s.reg x &&& s.reg y))

/-- 8XY3, bitwise exclusive OR; VF is not written (R126). -/
def execXor (x y : Reg) (s : State) : Host.Outcome State Fault Refusal := .next (s.setReg x (s.reg x ^^^ s.reg y))

/-- 8XY4, add with carry: the sum, then the flag (R127). -/
def execAddReg (x y : Reg) (s : State) : Host.Outcome State Fault Refusal :=
  .next ((s.setReg x (s.reg x + s.reg y)).setReg vf (flagByte (carry (s.reg x) (s.reg y))))

/-- 8XY5, VX - VY: the difference, then the flag (R128). -/
def execSub (x y : Reg) (s : State) : Host.Outcome State Fault Refusal :=
  .next ((s.setReg x (s.reg x - s.reg y)).setReg vf (flagByte (noBorrow (s.reg x) (s.reg y))))

/-- 8XY6, VY shifted right by one into VX: the flag, then the result (R129). -/
def execShr (x y : Reg) (s : State) : Host.Outcome State Fault Refusal :=
  .next ((s.setReg vf (flagByte (shiftedOutRight (s.reg y)))).setReg x (s.reg y >>> 1))

/-- 8XY7, VY - VX: the difference, then the flag (R130). -/
def execSubn (x y : Reg) (s : State) : Host.Outcome State Fault Refusal :=
  .next ((s.setReg x (s.reg y - s.reg x)).setReg vf (flagByte (noBorrow (s.reg y) (s.reg x))))

/-- 8XYE, VY shifted left by one into VX: the flag, then the result (R131). -/
def execShl (x y : Reg) (s : State) : Host.Outcome State Fault Refusal :=
  .next ((s.setReg vf (flagByte (shiftedOutLeft (s.reg y)))).setReg x (s.reg y <<< 1))

/-- CXNN for a given draw `rnd`: `V[X] <- rnd & NN` (R132). -/
def loadMasked (rnd : Byte) (x : Reg) (nn : Byte) (s : State) : State := s.setReg x (rnd &&& nn)

/-- CXNN, masked random byte: the draw is the next free value (R132, assumption log 1). -/
def execRnd (x : Reg) (nn : Byte) (s : State) : Host.Outcome State Fault Refusal :=
  .next (loadMasked (Config.randomByte s.draws) x nn s.consumeDraw)

end Sys2Proof.Machine
end

