-- ==== Sys2Proof/Machine/Operands.lean ====
section
/-! DEFINITION. The operand forms of the instructions (spec/00_scope.md R11, spec/30_encoding.md R73,
spec/42_index_memory.md R144, spec/43_display.md R161): every value here is read from the state before any write (R74). -/

namespace Sys2Proof.Machine

/-- `zext_16(NNN)`: an absolute byte address (R73). -/
def addressOperand (nnn : BitVec 12) : Word := nnn.setWidth 16

/-- `zext_16` of a register value or constant (R73). -/
def zext16 (b : Byte) : Word := b.setWidth 16

/-- BNNN's target `(zext_16(NNN) + zext_16(v0)) mod 65536`, not reduced to 12 bits (R108). -/
def offsetTarget (nnn : BitVec 12) (v0 : Byte) : Word := addressOperand nnn + zext16 v0

/-- FX29's `(FONT_START + 5 * zext_16(vx)) mod 65536`: the whole of VX, not its low nibble (R142). -/
def glyphAddress (c : Config) (vx : Byte) : Word := c.fontStart.setWidth 16 + 5 * zext16 vx

/-- The effective address of access number `k`: the natural number `I + k`, computed without wrap (R63, R144). -/
def State.effectiveAddress (s : State) (k : Nat) : Nat := s.i.toNat + k

/-- The three decimal digits FX33 stores, hundreds first, each as a byte 0..9 (R53, R143). -/
def decimalDigits (b : Byte) : List Byte :=
  [BitVec.ofNat 8 (b.toNat / 100), BitVec.ofNat 8 (b.toNat / 10 % 10), BitVec.ofNat 8 (b.toNat % 10)]

/-- The bytes FX55 stores: V0..VX, ascending (R145). -/
def State.registersUpTo (s : State) (x : Reg) : List Byte := s.v.toList.take (x.val + 1)

/-- The sprite's `n` row bytes at `I, I+1, ...` (R161). -/
def State.spriteRows (s : State) (n : Nat) : List Byte :=
  (List.range n).map fun r => s.byteAt (s.effectiveAddress r)

/-- The sprite's origin column `vx mod 64` (R162). -/
def originColumn (vx : Byte) : Nat := vx.toNat % 64

/-- The sprite's origin row `vy mod 32` (R162). -/
def originRow (vy : Byte) : Nat := vy.toNat % 32

/-- A register value as a key index, where it is one (R172, R173). -/
def keyOperand (b : Byte) : Option Key := if h : b.toNat < 16 then some ⟨b.toNat, h⟩ else none

/-- A key index as the register value FX0A delivers, 0..15 (R174). -/
def keyValue (k : Key) : Byte := BitVec.ofNat 8 k.val

end Sys2Proof.Machine
end

