-- ==== Sys2Proof/Machine/ControlFlow.lean ====
section
/-! DEFINITION. The control flow family (spec/40_control_flow.md): 0NNN, 00EE, 1NNN, 2NNN, 3XNN, 4XNN, 5XY0, 9XY0, BNNN, and
the silent no-op UNDEF (spec/30_encoding.md R83). The state a meaning is given has its pc already advanced (R70). -/

namespace Sys2Proof.Machine

/-- 0NNN, no operation (R100). -/
def execSys (_nnn : BitVec 12) (s : State) : Host.Outcome State Fault Refusal := .next s

/-- 00EE, return from subroutine (R101). -/
def execRet (s : State) : Host.Outcome State Fault Refusal := .next s.returnFromCall

/-- 1NNN, jump (R102). -/
def execJp (nnn : BitVec 12) (s : State) : Host.Outcome State Fault Refusal := .next (s.setPc (addressOperand nnn))

/-- 2NNN, call subroutine (R103). -/
def execCall (nnn : BitVec 12) (s : State) : Host.Outcome State Fault Refusal := .next (s.callTo (addressOperand nnn))

/-- 3XNN, skip if register equals constant (R104). -/
def execSeImm (x : Reg) (nn : Byte) (s : State) : Host.Outcome State Fault Refusal := .next (s.skipIf (s.reg x == nn))

/-- 4XNN, skip if register differs from constant (R105). -/
def execSneImm (x : Reg) (nn : Byte) (s : State) : Host.Outcome State Fault Refusal := .next (s.skipIf (s.reg x != nn))

/-- 5XY0, skip if registers equal (R106); the low nibble is not examined (R81, decision D8, assumption log 9). -/
def execSeReg (x y : Reg) (_low : BitVec 4) (s : State) : Host.Outcome State Fault Refusal :=
  .next (s.skipIf (s.reg x == s.reg y))

/-- 9XY0, skip if registers differ (R107); the low nibble is not examined (R81, decision D8, assumption log 9). -/
def execSneReg (x y : Reg) (_low : BitVec 4) (s : State) : Host.Outcome State Fault Refusal :=
  .next (s.skipIf (s.reg x != s.reg y))

/-- BNNN, jump with offset V0 (R108). -/
def execJpV0 (nnn : BitVec 12) (s : State) : Host.Outcome State Fault Refusal :=
  .next (s.setPc (offsetTarget nnn (s.reg 0)))

/-- UNDEF, the silent no-op of the words R78, R79 and R80 list (R83, R204). -/
def execUndef (_w : Word) (s : State) : Host.Outcome State Fault Refusal := .next s

end Sys2Proof.Machine
end

