-- ==== Sys2Proof/Machine/DisplayController.lean ====
section
/-! DEFINITION. The display controller instructions (spec/43_display.md): 00E0 and DXYN. -/

namespace Sys2Proof.Machine

/-- 00E0, clear the display; VF is not written (R160). -/
def execCls (s : State) : Host.Outcome State Fault Refusal := .next (s.setDisp blankDisplay)

/-- The frame buffer and the collision after drawing `n` rows at the position of `vx` and `vy`, from no collision (R162). -/
def State.drawn (s : State) (vx vy : Byte) (n : Nat) : Display × Bool :=
  plotSprite (originColumn vx) (s.spriteRows n) (originRow vy) (s.disp, false)

/-- DXYN, draw a sprite by exclusive OR; VF is the collision over the whole sprite. All N row addresses must be in range,
clipped or not (R162, decision D14, assumption log 11); N = 0 accesses nothing (R163). -/
def execDrw (x y : Reg) (n : BitVec 4) (s : State) : Host.Outcome State Fault Refusal :=
  if inMemory (s.effectiveAddress 0) n.toNat then
    .next ((s.setDisp (s.drawn (s.reg x) (s.reg y) n.toNat).1).setReg vf
      (flagByte (s.drawn (s.reg x) (s.reg y) n.toNat).2))
  else .fault .addressOutOfRange

end Sys2Proof.Machine
end

