-- ==== Sys2Proof/Machine/IndexMemory.lean ====
section
/-! DEFINITION. The index register and memory instructions (spec/42_index_memory.md): ANNN, FX1E, FX29, FX33, FX55, FX65. An
access beyond address 4095 is a fault of the whole step, decided before any write (spec/20_memory.md R51, R63). -/

namespace Sys2Proof.Machine

/-- ANNN, load index register (R140). -/
def execLdI (nnn : BitVec 12) (s : State) : Host.Outcome State Fault Refusal := .next (s.setI (addressOperand nnn))

/-- FX1E, add register to index, 16-bit, no flag (R141). -/
def execAddI (x : Reg) (s : State) : Host.Outcome State Fault Refusal := .next (s.setI (s.i + zext16 (s.reg x)))

/-- FX29, point I at a font glyph (R142). -/
def execLdF (x : Reg) (s : State) : Host.Outcome State Fault Refusal := .next (s.setI (glyphAddress s.cfg (s.reg x)))

/-- FX33, store three decimal digits at I, I+1, I+2 (R143). -/
def execLdB (x : Reg) (s : State) : Host.Outcome State Fault Refusal :=
  if inMemory (s.effectiveAddress 0) 3 then .next (s.storeBytes (s.effectiveAddress 0) (decimalDigits (s.reg x)))
  else .fault .addressOutOfRange

/-- FX55, store registers V0..VX at I..; I is unchanged (R144, R145). -/
def execLdMemVx (x : Reg) (s : State) : Host.Outcome State Fault Refusal :=
  if inMemory (s.effectiveAddress 0) (x.val + 1) then .next (s.storeBytes (s.effectiveAddress 0) (s.registersUpTo x))
  else .fault .addressOutOfRange

/-- FX65, load registers V0..VX from I..; I is unchanged (R144, R146). -/
def execLdVxMem (x : Reg) (s : State) : Host.Outcome State Fault Refusal :=
  if inMemory (s.effectiveAddress 0) (x.val + 1) then .next (s.loadRegs (s.effectiveAddress 0) x)
  else .fault .addressOutOfRange

end Sys2Proof.Machine
end

