-- ==== Sys2Proof/Machine/Keypad.lean ====
section
/-! DEFINITION. The keypad instructions (spec/44_keypad.md): EX9E, EXA1, FX0A. `AUTO_RELEASE` selects between their two
behaviours. -/

namespace Sys2Proof.Machine

/-- EX9E, skip if key pressed; in auto-release mode the key is released afterward, pressed or not (R172, decision D24,
assumption log 14). -/
def execSkp (x : Reg) (s : State) : Host.Outcome State Fault Refusal :=
  match keyOperand (s.reg x) with
  | some k => .next ((s.skipIf (s.key k)).autoRelease k true)
  | none => .fault .keyIndexOutOfRange

/-- EXA1, skip if key not pressed; in auto-release mode the key is released if it was pressed (R173). -/
def execSknp (x : Reg) (s : State) : Host.Outcome State Fault Refusal :=
  match keyOperand (s.reg x) with
  | some k => .next ((s.skipIf (!s.key k)).autoRelease k (s.key k))
  | none => .fault .keyIndexOutOfRange

/-- FX0A in normal mode: wait for a release event, then consume the release latch (R174). -/
def State.awaitRelease (s : State) (x : Reg) : State :=
  match s.lastReleased with
  | none => s.rewind
  | some k => (s.setReg x (keyValue k)).consumeReleased

/-- FX0A in auto-release mode: wait for a press event, synthesise the key's release, consume the press latch (R174). -/
def State.awaitPress (s : State) (x : Reg) : State :=
  match s.lastPressed with
  | none => s.rewind
  | some k => ((s.setReg x (keyValue k)).release k).consumePressed

/-- FX0A, wait for a key event: a blocked step rewinds pc onto the instruction itself (R174). -/
def execLdVxK (x : Reg) (s : State) : Host.Outcome State Fault Refusal :=
  .next (if s.cfg.autoRelease then s.awaitPress x else s.awaitRelease x)

end Sys2Proof.Machine
end

