-- ==== Sys2Proof/Machine/Timers.lean ====
section
/-! DEFINITION. The timer instructions (spec/45_timers.md): FX07, FX15, FX18. -/

namespace Sys2Proof.Machine

/-- FX07, read the delay timer (R180). -/
def execLdVxDt (x : Reg) (s : State) : Host.Outcome State Fault Refusal := .next (s.setReg x s.dt)

/-- FX15, set the delay timer (R181). -/
def execLdDtVx (x : Reg) (s : State) : Host.Outcome State Fault Refusal := .next (s.setDT (s.reg x))

/-- FX18, set the sound timer (R182). -/
def execLdStVx (x : Reg) (s : State) : Host.Outcome State Fault Refusal := .next (s.setST (s.reg x))

end Sys2Proof.Machine
end

