-- ==== Sys2Proof/Machine/Step.lean ====
section
/-! DEFINITION. The `Step` transaction (spec/30_encoding.md R70): fetch, pc advance before dispatch, decode, execute. -/

namespace Sys2Proof.Machine

/-- One step: a fetch beyond memory is a fault (R51); else the fetched word's instruction runs on the advanced state. -/
def step (s : State) : Host.Outcome State Fault Refusal :=
  match fetchWord s with
  | none => .fault .addressOutOfRange
  | some w => exec (decodeWord w) s.beginStep

/-- `s` with the instruction of a table row's bits stored at the two bytes the next step fetches. -/
def State.withFetchWord (s : State) (nbits w : Nat) : State := s.placeWord (tableWord nbits w)

end Sys2Proof.Machine
end

