-- ==== Sys2Proof/Machine/Transactions.lean ====
section
/-! DEFINITION. What the host does to the machine beside `Step` (spec/00_scope.md R4): `Tick`, `KeyPress`, `KeyRelease`,
`DisplayRead`, `LoadFont`, `LoadRom`, `Reset`, each one atomic transaction, in any order the host likes (spec/45_timers.md
R184, spec/60_exceptions.md R206). -/

namespace Sys2Proof.Machine

/-- `Tick`: each timer counts down once, floored at 0 (R183). The run has begun (R238). -/
def State.tick (s : State) : State :=
  { s with
    dt := if s.dt = 0 then 0 else s.dt - 1
    st := if s.st = 0 then 0 else s.st - 1
    started := true }

/-- `KeyPress(k)`: indices of 16 and above are ignored (R170). -/
def State.keyPress (s : State) (k : Byte) : State :=
  match keyOperand k with
  | some key => s.press key
  | none => s

/-- `KeyRelease(k)`: indices of 16 and above are ignored (R171). -/
def State.keyRelease (s : State) (k : Byte) : State :=
  match keyOperand k with
  | some key => s.release key
  | none => s

/-- `DisplayRead`: all 2048 cells in row-major order, cell (x, y) at index `y*64 + x`; it changes nothing (R164). -/
def State.displayRead (s : State) : List Bool := s.disp.toList.flatMap fun row => row.toList

/-- The result of a load transaction (R215). -/
inductive LoadResult where
  | succeeded
  | failed
  deriving DecidableEq, Repr

/-- The body of `LoadFont` (R236): exactly 80 bytes overwrite the font region; any other length fails and changes nothing. -/
def State.loadFontBytes (s : State) (bytes : List Byte) : LoadResult × State :=
  if bytes.length = 80 then (.succeeded, s.storeBytes s.cfg.fontStart.toNat bytes) else (.failed, s)

/-- The longest ROM: `4096 - 352 - ROM_START` (R237, C7). -/
def romCapacity (c : Config) : Nat := 4096 - 352 - c.romStart.toNat

/-- The body of `LoadRom` (R237): bytes that fit are copied to `ROM_START` and their number recorded; else it fails and
changes nothing. -/
def State.loadRomBytes (s : State) (bytes : List Byte) : LoadResult × State :=
  if bytes.length ≤ romCapacity s.cfg then
    (.succeeded, { s.storeBytes s.cfg.romStart.toNat bytes with romSize := bytes.length })
  else (.failed, s)

/-- `LoadFont`: after the first `Step` or `Tick` it has no behaviour (R238). -/
def loadFont (bytes : List Byte) (s : State) : Host.Outcome State Fault Refusal :=
  if s.started then .fault .loadAfterRun else .next (s.loadFontBytes bytes).2

/-- `LoadRom`: after the first `Step` or `Tick` it has no behaviour (R238). -/
def loadRom (bytes : List Byte) (s : State) : Host.Outcome State Fault Refusal :=
  if s.started then .fault .loadAfterRun else .next (s.loadRomBytes bytes).2

/-- `Reset` with a configuration (R230). Draws already consumed are not drawn again: the random source is outside the
engine (R34). -/
def resetTo (c : Config) (s : State) : Host.Outcome State Fault Refusal :=
  if c.valid then .next { State.resetWith c with draws := s.draws } else .fault .badConfiguration

/-- The transactions of R4. -/
inductive Transaction where
  | step
  | tick
  | keyPress (k : Byte)
  | keyRelease (k : Byte)
  | displayRead
  | loadFont (bytes : List Byte)
  | loadRom (bytes : List Byte)
  | reset (c : Config)
  deriving DecidableEq, Repr

/-- What a transaction does to the state; its output, where it has one, is `State.displayRead`, the load result or the
report output. -/
def perform (t : Transaction) (s : State) : Host.Outcome State Fault Refusal :=
  match t with
  | .step => Sys2Proof.Machine.step s
  | .tick => .next s.tick
  | .keyPress k => .next (s.keyPress k)
  | .keyRelease k => .next (s.keyRelease k)
  | .displayRead => .next s
  | .loadFont bytes => Sys2Proof.Machine.loadFont bytes s
  | .loadRom bytes => Sys2Proof.Machine.loadRom bytes s
  | .reset c => resetTo c s

/-- A sequence of transactions, stopping at the first that has no next state. -/
def performAll : List Transaction → State → Host.Outcome State Fault Refusal
  | [], s => .next s
  | t :: rest, s =>
    match perform t s with
    | .next s' => performAll rest s'
    | .fault r => .fault r
    | .refused r => .refused r

end Sys2Proof.Machine
end

