-- ==== Sys2Proof/Safety.lean ====
section
/-! DEFINITION. The terms claims are stated in: when a step is defined (spec/60_exceptions.md R208), what a run can reach,
the invariant of a run, and what it means that an instruction leaves the rest of the state alone (spec/00_scope.md R13). -/

namespace Sys2Proof.Machine

/-- The UNSPECIFIED condition of R208 that an instruction meets in a state, if it meets one. Written from R208's table, not
from the meanings. -/
def unspecified (i : Instr) (s : State) : Option Fault :=
  match i with
  | .drw _ _ n => if 1 ≤ n.toNat ∧ 4095 < s.i.toNat + n.toNat - 1 then some .addressOutOfRange else none
  | .ldB _ => if 4095 < s.i.toNat + 2 then some .addressOutOfRange else none
  | .ldMemVx x => if 4095 < s.i.toNat + x.val then some .addressOutOfRange else none
  | .ldVxMem x => if 4095 < s.i.toNat + x.val then some .addressOutOfRange else none
  | .skp x => if 15 < (s.reg x).toNat then some .keyIndexOutOfRange else none
  | .sknp x => if 15 < (s.reg x).toNat then some .keyIndexOutOfRange else none
  | .cls | .ret | .sys _ | .jp _ | .call _ | .seImm _ _ | .sneImm _ _ | .seReg _ _ _ | .ldImm _ _ | .addImm _ _
  | .ldReg _ _ | .or _ _ | .and _ _ | .xor _ _ | .addReg _ _ | .sub _ _ | .shr _ _ | .subn _ _ | .shl _ _
  | .sneReg _ _ _ | .ldI _ | .jpV0 _ | .rnd _ _ | .ldVxDt _ | .ldVxK _ | .ldDtVx _ | .ldStVx _ | .addI _ | .ldF _
  | .undef _ => none

/-- A safe run: every transaction of it has a next state. -/
def SafeRun (ts : List Transaction) (s : State) : Prop := ∃ t, performAll ts s = .next t

/-- The word the next fetch reads, meaningful where pc is at most 0xFFE (R52). -/
def State.nextWord (s : State) : Word := wordOfBytes (s.byteAt s.pc.toNat) (s.byteAt (s.pc.toNat + 1))

/-- Instructions executed one after the other, whatever pc says, stopping at the first that has no next state. -/
def execAll : List Instr → State → Host.Outcome State Fault Refusal
  | [], s => .next s
  | i :: rest, s =>
    match exec i s with
    | .next s' => execAll rest s'
    | .fault r => .fault r
    | .refused r => .refused r

/-- What the host can bring the machine to: from `Reset` with a valid configuration, by any transactions in any order. -/
inductive Reachable : State → Prop where
  | start (c : Config) (h : c.valid = true) : Reachable (State.resetWith c)
  | next (s s' : State) (t : Transaction) (hs : Reachable s) (h : perform t s = .next s') : Reachable s'

/-- What holds between any two transactions of a run. -/
structure State.Inv (s : State) : Prop where
  /-- The configuration is one `Reset` accepts (R230). -/
  configuration : s.cfg.valid = true
  /-- Memory is in canonical form over the 4096 addresses (R50). -/
  memory : Memory.wf s.boot s.mem = true
  /-- "Invariant: size never exceeds capacity" (R26). -/
  stackDepth : s.sp ≤ 16
  /-- A return address is an advanced pc of an instruction that was fetched (R22, R103). -/
  returnAddresses : ∀ w ∈ s.stack, w.toNat ≤ 0x1000
  /-- Execution only produces pc values up to 0x10FE (R23). -/
  pcBound : s.pc.toNat ≤ 0x10FE
  /-- A loaded ROM ends below the reserved bytes (R56, R237). -/
  romFits : s.cfg.romStart.toNat + s.romSize ≤ 3744

/-- `t` differs from `s` at most in the general registers listed: every other register, and every other field of the state,
is the same. -/
def OnlyRegsChanged (s t : State) (rs : List Reg) : Prop :=
  (∀ r, r ∉ rs → t.reg r = s.reg r) ∧ { t with v := s.v } = s

/-- The sprite of `n` rows drawn from origin `(px, py)` has a set bit at column `x`, row `y`: bit `7 - c` of the byte at
`I + r` for `x = px + c`, `y = py + r` (R161, R162). Asked of screen positions only, so the body is clipped there. -/
def spriteBit (s : State) (n px py x y : Nat) : Prop :=
  ∃ r c, r < n ∧ c < 8 ∧ x = px + c ∧ y = py + r ∧ (s.byteAt (s.i.toNat + r)).getLsbD (7 - c) = true

/-- The pieces of the state that R38's table speaks of, and those it leaves out because no instruction writes them. Memory
counts byte by byte, the call stack entry by entry, the keys one by one. -/
inductive Piece where
  | reg (r : Reg)
  | index
  | pc
  | delayTimer
  | soundTimer
  | stackDepth
  | stackEntry (j : Nat)
  | key (k : Key)
  | lastPressed
  | lastReleased
  | frameBuffer
  | byte (a : Nat)
  | report
  | draws
  | configuration
  | romSize
  | started
  deriving DecidableEq, Repr

/-- A piece is the same in two states. -/
def Piece.Same (p : Piece) (s t : State) : Prop :=
  match p with
  | .reg r => t.reg r = s.reg r
  | .index => t.i = s.i
  | .pc => t.pc = s.pc
  | .delayTimer => t.dt = s.dt
  | .soundTimer => t.st = s.st
  | .stackDepth => t.sp = s.sp
  | .stackEntry j => t.stackEntry j = s.stackEntry j
  | .key k => t.key k = s.key k
  | .lastPressed => t.lastPressed = s.lastPressed
  | .lastReleased => t.lastReleased = s.lastReleased
  | .frameBuffer => t.disp = s.disp
  | .byte a => t.byteAt a = s.byteAt a
  | .report => t.reportOut = s.reportOut
  | .draws => t.draws = s.draws
  | .configuration => t.cfg = s.cfg
  | .romSize => t.romSize = s.romSize
  | .started => t.started = s.started

/-- R38's "pc (if skipping)". -/
def skipWrites (taken : Bool) : List Piece := if taken then [.pc] else []

/-- R38's "keys[VX], last_released (auto-release only)": what a synthesised release of `k` writes. -/
def releaseWrites (k : Key) (released : Bool) : List Piece := if released then [.key k, .lastReleased] else []

/-- R38's "mem[I..]" for `count` bytes: their effective addresses (R144). -/
def storeWrites (s : State) (count : Nat) : List Piece := (List.range count).map fun k => .byte (s.effectiveAddress k)

/-- The "writes (besides adv)" column of R38 for the instruction in the state before it: each alternative of the column ("or
report", "if skipping", "auto-release only", "or pc (rewind)") where its rule takes it. RET's entry `SP - 1` is no longer live
after it (R25). A CXNN also moves the model's draw counter on. -/
def writes (s : State) (i : Instr) : List Piece :=
  match i with
  | .cls => [.frameBuffer]
  | .ret => if s.sp = 0 then [.report] else [.stackEntry (s.sp - 1), .stackDepth, .pc]
  | .sys _ => []
  | .jp _ => [.pc]
  | .call _ => if s.sp < 16 then [.stackEntry s.sp, .stackDepth, .pc] else [.report]
  | .seImm x nn => skipWrites (s.reg x == nn)
  | .sneImm x nn => skipWrites (s.reg x != nn)
  | .seReg x y _ => skipWrites (s.reg x == s.reg y)
  | .ldImm x _ => [.reg x]
  | .addImm x _ => [.reg x]
  | .ldReg x _ => [.reg x]
  | .or x _ => [.reg x]
  | .and x _ => [.reg x]
  | .xor x _ => [.reg x]
  | .addReg x _ => [.reg x, .reg 15]
  | .sub x _ => [.reg x, .reg 15]
  | .shr x _ => [.reg x, .reg 15]
  | .subn x _ => [.reg x, .reg 15]
  | .shl x _ => [.reg x, .reg 15]
  | .sneReg x y _ => skipWrites (s.reg x != s.reg y)
  | .ldI _ => [.index]
  | .jpV0 _ => [.pc]
  | .rnd x _ => [.reg x, .draws]
  | .drw _ _ _ => [.frameBuffer, .reg 15]
  | .skp x =>
    match keyOperand (s.reg x) with
    | some k => skipWrites (s.key k) ++ releaseWrites k s.cfg.autoRelease
    | none => []
  | .sknp x =>
    match keyOperand (s.reg x) with
    | some k => skipWrites (!s.key k) ++ releaseWrites k (s.cfg.autoRelease && s.key k)
    | none => []
  | .ldVxDt x => [.reg x]
  | .ldVxK x =>
    match s.cfg.autoRelease, s.lastPressed, s.lastReleased with
    | false, _, none => [.pc]
    | false, _, some _ => [.reg x, .lastReleased]
    | true, none, _ => [.pc]
    | true, some k, _ => [.reg x, .lastPressed] ++ releaseWrites k true
  | .ldDtVx _ => [.delayTimer]
  | .ldStVx _ => [.soundTimer]
  | .addI _ => [.index]
  | .ldF _ => [.index]
  | .ldB _ => storeWrites s 3
  | .ldMemVx x => storeWrites s (x.val + 1)
  | .ldVxMem x => ((List.finRange 16).filter (fun r => r ≤ x)).map Piece.reg
  | .undef _ => []

end Sys2Proof.Machine
end

