-- ==== Sys2Proof/Certificates/Slice0/Obligations.lean ====
section
/-! DEFINITION. The statements for the provers. Instructions are stated through `exec` on the state whose pc the fetch has
already advanced; `StepRunsDecodedInstruction` says that a step is that. An equation such as `{ t with pc := s.pc } = s` says
that every field but the one named is as before: registers, timers, stack, keys, latches, frame buffer, memory, outputs. -/

open Sys2Proof Sys2Proof.Machine

/-! ## Encoding -/

/-- Sanity: words written out from the encodings of R76 and the spot checks of spec/95_test_vectors.md 2.7. -/
def Obligations.SpecWordsDecode : Prop :=
  decodeWord 0x00E0 = .cls ∧ decodeWord 0x00EE = .ret ∧ decodeWord 0x00E1 = .sys 0x0E1 ∧
  decodeWord 0x1ABC = .jp 0xABC ∧ decodeWord 0x332A = .seImm 3 0x2A ∧ decodeWord 0x5AB7 = .seReg 0xA 0xB 7 ∧
  decodeWord 0x8ABE = .shl 0xA 0xB ∧ decodeWord 0x8AB8 = .undef 0x8AB8 ∧ decodeWord 0xA300 = .ldI 0x300 ∧
  decodeWord 0xD013 = .drw 0 1 3 ∧ decodeWord 0xE39E = .skp 3 ∧ decodeWord 0xEA9F = .undef 0xEA9F ∧
  decodeWord 0xFA0A = .ldVxK 0xA ∧ decodeWord 0xFA65 = .ldVxMem 0xA ∧ decodeWord 0xFA75 = .undef 0xFA75

/-- R71 to R77: the two bytes of every well-formed instruction decode to it, with every operand at every value, and leave the
bytes after them. -/
def Obligations.DecodeInvertsEncode : Prop :=
  ∀ (i : Instr) (rest : List Byte), i.wf = true → decode (encodeBytes i ++ rest) = .ok (i, rest)

/-- R75: decode is total, and no bit of a word is dropped: every one of the 65536 words decodes to a well-formed instruction
whose encoding is that word. -/
def Obligations.EncodeInvertsDecode : Prop :=
  ∀ w : Word, (decodeWord w).wf = true ∧ encode (decodeWord w) = w

/-- The words that decode to UNDEF are exactly those of R78, R79 and R80. That none of 5XYN and 9XYN is among them is the
spec's decision D8 (R81, assumption log 9). -/
def Obligations.UndefWordsAreTheReservedOnes : Prop :=
  ∀ w : Word, (∃ u, decodeWord w = .undef u) ↔
    (w.toNat / 4096 = 8 ∧ (8 ≤ w.toNat % 16 ∧ w.toNat % 16 ≠ 0xE)) ∨
    (w.toNat / 4096 = 0xE ∧ w.toNat % 256 ≠ 0x9E ∧ w.toNat % 256 ≠ 0xA1) ∨
    (w.toNat / 4096 = 0xF ∧ w.toNat % 256 ∉ [0x07, 0x0A, 0x15, 0x18, 0x1E, 0x29, 0x33, 0x55, 0x65])

/-! ## The step -/

/-- R70, R52: where the two bytes at pc decode to `i`, a step is `exec i` on the state whose pc is advanced by 2, whose report
output starts from NoError and whose run has begun (the last is the model's field, assumption log 6). -/
def Obligations.StepRunsDecodedInstruction : Prop :=
  ∀ (s : State) (i : Instr), s.pc.toNat ≤ 0xFFE →
    decode [s.byteAt s.pc.toNat, s.byteAt (s.pc.toNat + 1)] = .ok (i, []) →
    step s = exec i { s with pc := s.pc + 2, reportOut := .noError, started := true }

/-- The closed list of spec/60_exceptions.md section 6 (decisions D6, D9), for every instruction: it faults with the list's
reason where the list has its condition, and it has a next state everywhere else. -/
def Obligations.InstructionsEndAsListed : Prop :=
  ∀ (i : Instr) (s : State),
    (∀ f, unspecified i s = some f → exec i s = .fault f) ∧ (unspecified i s = none → ∃ t, exec i s = .next t)

/-- The same of a whole step, with the fetch (decisions D6, D9): no step is refused, and a step faults only as listed. -/
def Obligations.StepsEndAsListed : Prop :=
  ∀ s : State,
    (0xFFE < s.pc.toNat → step s = .fault .addressOutOfRange) ∧
    (s.pc.toNat ≤ 0xFFE → ∀ f, unspecified (decodeWord s.nextWord) s = some f → step s = .fault f) ∧
    (s.pc.toNat ≤ 0xFFE → unspecified (decodeWord s.nextWord) s = none → ∃ t, step s = .next t)

/-- 0NNN and every UNDEF word change nothing beyond the pc advance and report nothing (R204). That a step also marks the run
as begun is the model's own (assumption log 6). -/
def Obligations.SilentWordsOnlyAdvance : Prop :=
  (∀ (nnn : BitVec 12) (s : State), exec (.sys nnn) s = .next s) ∧
  (∀ (w : Word) (s : State), exec (.undef w) s = .next s) ∧
  (∀ s : State, s.pc.toNat ≤ 0xFFE →
    (isUndefWord s.nextWord = true ∨
      (s.nextWord.toNat < 0x1000 ∧ s.nextWord ≠ 0x00E0 ∧ s.nextWord ≠ 0x00EE)) →
    step s = .next { s with pc := s.pc + 2, reportOut := .noError, started := true })

/-- R203 (decision D15), R35: the report of an earlier step has no effect on a step. -/
def Obligations.EarlierReportHasNoEffect : Prop :=
  ∀ (s : State) (r : Report), step { s with reportOut := r } = step s

/-- R202 (decision D15): a step reports an overflow exactly for CALL at a full stack and an underflow exactly for RET at an
empty one. The premise is the stack invariant of R26, which every step keeps. -/
def Obligations.ReportsAreTheStackErrors : Prop :=
  ∀ s t : State, s.sp ≤ 16 → step s = .next t →
    (t.reportOut = .stackOverflow ↔ (∃ nnn, decodeWord s.nextWord = .call nnn) ∧ s.sp = 16) ∧
    (t.reportOut = .stackUnderflow ↔ decodeWord s.nextWord = .ret ∧ s.sp = 0)

/-! ## Control flow -/

/-- 1NNN and BNNN: pc becomes NNN, or NNN + V0 without reduction to 12 bits, and nothing else changes. -/
def Obligations.JumpsLoadPc : Prop :=
  (∀ (nnn : BitVec 12) (s : State), ∃ t, exec (.jp nnn) s = .next t ∧ t.pc.toNat = nnn.toNat ∧
    { t with pc := s.pc } = s) ∧
  (∀ (nnn : BitVec 12) (s : State), ∃ t, exec (.jpV0 nnn) s = .next t ∧ t.pc.toNat = nnn.toNat + (s.reg 0).toNat ∧
    { t with pc := s.pc } = s)

/-- R103: below 16 entries CALL pushes the advanced pc and jumps; at 16 it reports and does nothing else. -/
def Obligations.CallPushesReturnAddress : Prop :=
  ∀ (nnn : BitVec 12) (s : State),
    (s.sp < 16 → ∃ t, exec (.call nnn) s = .next t ∧ t.sp = s.sp + 1 ∧ t.stackEntry s.sp = some s.pc ∧
      (∀ j, j < s.sp → t.stackEntry j = s.stackEntry j) ∧ t.pc.toNat = nnn.toNat ∧
      { t with stack := s.stack, pc := s.pc } = s) ∧
    (s.sp = 16 → exec (.call nnn) s = .next { s with reportOut := .stackOverflow })

/-- R101: RET pops the newest entry into pc, with no masking; at an empty stack it reports and does nothing else. -/
def Obligations.ReturnPopsNewestEntry : Prop :=
  ∀ s : State,
    (0 < s.sp → ∃ t, exec .ret s = .next t ∧ t.sp = s.sp - 1 ∧ s.stackEntry (s.sp - 1) = some t.pc ∧
      (∀ j, j < t.sp → t.stackEntry j = s.stackEntry j) ∧ { t with stack := s.stack, pc := s.pc } = s) ∧
    (s.sp = 0 → exec .ret s = .next { s with reportOut := .stackUnderflow })

/-- Stack discipline (spec/95_test_vectors.md S8): calls succeed until 16 entries are live, and as many returns as there are
entries succeed, none of them reported. -/
def Obligations.CallsNestToSixteen : Prop :=
  (∀ (s : State) (targets : List (BitVec 12)), s.sp + targets.length ≤ 16 →
    ∃ t, execAll (targets.map Instr.call) s = .next t ∧ t.sp = s.sp + targets.length ∧ t.reportOut = s.reportOut) ∧
  (∀ (s : State) (n : Nat), n ≤ s.sp →
    ∃ t, execAll (List.replicate n Instr.ret) s = .next t ∧ t.sp = s.sp - n ∧ t.reportOut = s.reportOut)

/-- R104, R105: 3XNN and 4XNN add 2 to the advanced pc, modulo 2^16, exactly on their condition, and change nothing else. -/
def Obligations.SkipsOnConstant : Prop :=
  ∀ (x : Reg) (nn : Byte) (s : State),
    (∃ t, exec (.seImm x nn) s = .next t ∧ { t with pc := s.pc } = s ∧
      t.pc.toNat = (if (s.reg x).toNat = nn.toNat then (s.pc.toNat + 2) % 65536 else s.pc.toNat)) ∧
    (∃ t, exec (.sneImm x nn) s = .next t ∧ { t with pc := s.pc } = s ∧
      t.pc.toNat = (if (s.reg x).toNat = nn.toNat then s.pc.toNat else (s.pc.toNat + 2) % 65536))

/-- 5XYN and 9XYN: the same on two registers, for every low nibble (that it is not examined is decision D8). -/
def Obligations.SkipsOnRegister : Prop :=
  ∀ (x y : Reg) (low : BitVec 4) (s : State),
    (∃ t, exec (.seReg x y low) s = .next t ∧ { t with pc := s.pc } = s ∧
      t.pc.toNat = (if (s.reg x).toNat = (s.reg y).toNat then (s.pc.toNat + 2) % 65536 else s.pc.toNat)) ∧
    (∃ t, exec (.sneReg x y low) s = .next t ∧ { t with pc := s.pc } = s ∧
      t.pc.toNat = (if (s.reg x).toNat = (s.reg y).toNat then s.pc.toNat else (s.pc.toNat + 2) % 65536))

/-- A jump to its own address repeats for ever: its step changes nothing but the outputs a step drives. -/
def Obligations.JumpToSelfRepeats : Prop :=
  ∀ s : State, s.pc.toNat ≤ 0xFFE → s.nextWord.toNat = 0x1000 + s.pc.toNat →
    step s = .next { s with reportOut := .noError, started := true }

/-! ## Arithmetic, logic, shifts, random -/

/-- R121, R123 to R126: load, copy, OR, AND, XOR write VX alone, bit by bit; VF only where X names it. -/
def Obligations.LoadsAndLogicWriteVx : Prop :=
  (∀ (x : Reg) (nn : Byte) (s : State), ∃ t, exec (.ldImm x nn) s = .next t ∧ t.reg x = nn ∧
    OnlyRegsChanged s t [x]) ∧
  (∀ (x y : Reg) (s : State), ∃ t, exec (.ldReg x y) s = .next t ∧ t.reg x = s.reg y ∧ OnlyRegsChanged s t [x]) ∧
  (∀ (x y : Reg) (s : State), ∃ t, exec (.or x y) s = .next t ∧ OnlyRegsChanged s t [x] ∧
    ∀ k, (t.reg x).getLsbD k = ((s.reg x).getLsbD k || (s.reg y).getLsbD k)) ∧
  (∀ (x y : Reg) (s : State), ∃ t, exec (.and x y) s = .next t ∧ OnlyRegsChanged s t [x] ∧
    ∀ k, (t.reg x).getLsbD k = ((s.reg x).getLsbD k && (s.reg y).getLsbD k)) ∧
  (∀ (x y : Reg) (s : State), ∃ t, exec (.xor x y) s = .next t ∧ OnlyRegsChanged s t [x] ∧
    ∀ k, (t.reg x).getLsbD k = ((s.reg x).getLsbD k != (s.reg y).getLsbD k))

/-- R122: 7XNN adds modulo 256 and leaves every other register, VF among them, alone. -/
def Obligations.AddConstantSetsNoFlag : Prop :=
  ∀ (x : Reg) (nn : Byte) (s : State), ∃ t, exec (.addImm x nn) s = .next t ∧
    (t.reg x).toNat = ((s.reg x).toNat + nn.toNat) % 256 ∧ OnlyRegsChanged s t [x]

/-- 8XY4, 8XY5, 8XY7: VF is the flag of the operands before the instruction, for every X and Y; where X is not F, VX is the
sum or difference modulo 256. That the flag stands where X = F is the write order of decision D7, and that equal operands
give 0 the spec's resolution C2. -/
def Obligations.AddAndSubtractSetFlag : Prop :=
  ∀ (x y : Reg) (s : State),
    (∃ t, exec (.addReg x y) s = .next t ∧ OnlyRegsChanged s t [x, 15] ∧
      (t.reg 15).toNat = (if 255 < (s.reg x).toNat + (s.reg y).toNat then 1 else 0) ∧
      (x ≠ 15 → (t.reg x).toNat = ((s.reg x).toNat + (s.reg y).toNat) % 256)) ∧
    (∃ t, exec (.sub x y) s = .next t ∧ OnlyRegsChanged s t [x, 15] ∧
      (t.reg 15).toNat = (if (s.reg y).toNat < (s.reg x).toNat then 1 else 0) ∧
      (x ≠ 15 → (t.reg x).toNat = ((s.reg x).toNat + 256 - (s.reg y).toNat) % 256)) ∧
    (∃ t, exec (.subn x y) s = .next t ∧ OnlyRegsChanged s t [x, 15] ∧
      (t.reg 15).toNat = (if (s.reg x).toNat < (s.reg y).toNat then 1 else 0) ∧
      (x ≠ 15 → (t.reg x).toNat = ((s.reg y).toNat + 256 - (s.reg x).toNat) % 256))

/-- 8XY6, 8XYE: VX is VY shifted by one, for every X and Y; where X is not F, VF is the bit shifted out. That the shifted
value stands where X = F is the write order of decision D7. -/
def Obligations.ShiftsTakeVy : Prop :=
  ∀ (x y : Reg) (s : State),
    (∃ t, exec (.shr x y) s = .next t ∧ OnlyRegsChanged s t [x, 15] ∧
      (t.reg x).toNat = (s.reg y).toNat / 2 ∧ (x ≠ 15 → (t.reg 15).toNat = (s.reg y).toNat % 2)) ∧
    (∃ t, exec (.shl x y) s = .next t ∧ OnlyRegsChanged s t [x, 15] ∧
      (t.reg x).toNat = (s.reg y).toNat * 2 % 256 ∧ (x ≠ 15 → (t.reg 15).toNat = (s.reg y).toNat / 128))

/-- CXNN: VX is the draw of the step masked by NN. The draw is a free value (decision D16, assumption log 1), so this holds
for every draw; the counter that supplies the next one moves on. -/
def Obligations.RandomByteIsMasked : Prop :=
  ∀ (x : Reg) (nn : Byte) (s : State), ∃ t, exec (.rnd x nn) s = .next t ∧
    (∀ k, (t.reg x).getLsbD k = ((Config.randomByte s.draws).getLsbD k && nn.getLsbD k)) ∧
    (∀ r, r ≠ x → t.reg r = s.reg r) ∧ t.draws = s.draws + 1 ∧ { t with v := s.v, draws := s.draws } = s

/-! ## Index and memory -/

/-- R140, R141, R142: ANNN, FX1E and FX29 write I alone; no flag. -/
def Obligations.IndexInstructionsWriteI : Prop :=
  (∀ (nnn : BitVec 12) (s : State), ∃ t, exec (.ldI nnn) s = .next t ∧ t.i.toNat = nnn.toNat ∧ { t with i := s.i } = s) ∧
  (∀ (x : Reg) (s : State), ∃ t, exec (.addI x) s = .next t ∧
    t.i.toNat = (s.i.toNat + (s.reg x).toNat) % 65536 ∧ { t with i := s.i } = s) ∧
  (∀ (x : Reg) (s : State), ∃ t, exec (.ldF x) s = .next t ∧
    t.i.toNat = s.cfg.fontStart.toNat + 5 * (s.reg x).toNat ∧ { t with i := s.i } = s)

/-- FX33 in range: the three digits of VX stand at I, I+1, I+2, and every other address reads as before. -/
def Obligations.DigitsAreStored : Prop :=
  ∀ (x : Reg) (s : State), s.i.toNat + 2 ≤ 4095 → ∃ t, exec (.ldB x) s = .next t ∧
    (t.byteAt (s.effectiveAddress 0)).toNat = (s.reg x).toNat / 100 ∧
    (t.byteAt (s.effectiveAddress 1)).toNat = (s.reg x).toNat / 10 % 10 ∧
    (t.byteAt (s.effectiveAddress 2)).toNat = (s.reg x).toNat % 10 ∧
    (∀ a, (∀ k, k < 3 → a ≠ s.effectiveAddress k) → t.byteAt a = s.byteAt a) ∧ { t with mem := s.mem } = s

/-- FX55 in range: register j stands at I + j for j up to X, every other address reads as before, and I is unchanged. -/
def Obligations.RegistersAreStored : Prop :=
  ∀ (x : Reg) (s : State), s.i.toNat + x.val ≤ 4095 → ∃ t, exec (.ldMemVx x) s = .next t ∧
    (∀ j : Reg, j ≤ x → t.byteAt (s.effectiveAddress j.val) = s.reg j) ∧
    (∀ a, (∀ j : Reg, j ≤ x → a ≠ s.effectiveAddress j.val) → t.byteAt a = s.byteAt a) ∧ { t with mem := s.mem } = s

/-- FX65 in range: register j is the byte at I + j for j up to X; the registers above, memory and I are unchanged. -/
def Obligations.RegistersAreLoaded : Prop :=
  ∀ (x : Reg) (s : State), s.i.toNat + x.val ≤ 4095 → ∃ t, exec (.ldVxMem x) s = .next t ∧
    (∀ j : Reg, j ≤ x → t.reg j = s.byteAt (s.effectiveAddress j.val)) ∧ (∀ j : Reg, x < j → t.reg j = s.reg j) ∧
    (∀ a, t.byteAt a = s.byteAt a) ∧ { t with v := s.v } = s

/-- Round trip (spec/95_test_vectors.md S11): after FX55, whatever then happens to the registers, FX65 with the same X and I
restores V0..VX. -/
def Obligations.StoreThenLoadRestoresRegisters : Prop :=
  ∀ (x : Reg) (s t : State) (v : Vector Byte 16), exec (.ldMemVx x) s = .next t →
    ∃ u, exec (.ldVxMem x) { t with v := v } = .next u ∧ (∀ j : Reg, j ≤ x → u.reg j = s.reg j)

/-- R60: a step that stores two registers over the next instruction's bytes changes what the next step fetches. -/
def Obligations.StoredBytesAreFetchedNext : Prop :=
  ∀ (s : State) (x p q : Reg), s.pc.toNat ≤ 0xFFE → decodeWord s.nextWord = .ldMemVx x → s.i.toNat + x.val ≤ 4095 →
    s.i.toNat + p.val = s.pc.toNat + 2 → s.i.toNat + q.val = s.pc.toNat + 3 → q ≤ x →
    ∃ t, step s = .next t ∧ fetchWord t = some (wordOfBytes (s.reg p) (s.reg q))

/-- R64: a step changes a byte of memory only by FX33, at I..I+2, or by FX55, at I..I+X. -/
def Obligations.OnlyStoresWriteMemory : Prop :=
  ∀ (s t : State) (a : Nat), step s = .next t → t.byteAt a ≠ s.byteAt a →
    ∃ x, (decodeWord s.nextWord = .ldB x ∧ s.i.toNat ≤ a ∧ a ≤ s.i.toNat + 2) ∨
      (decodeWord s.nextWord = .ldMemVx x ∧ s.i.toNat ≤ a ∧ a ≤ s.i.toNat + x.val)

/-- The model's form of memory is canonical: two memories in it that read the same everywhere are the same list (assumption
log 5). -/
def Obligations.EqualReadsAreEqualMemories : Prop :=
  ∀ (boot : Nat → Byte) (m n : Memory), Memory.wf boot m = true → Memory.wf boot n = true →
    (∀ a, a < 4096 → Memory.read boot m a = Memory.read boot n a) → m = n

/-! ## Display -/

/-- R160: 00E0 turns all 2048 cells off and changes nothing else. -/
def Obligations.ClearTurnsEveryCellOff : Prop :=
  ∀ s : State, ∃ t, exec .cls s = .next t ∧ (∀ x y, x < 64 → y < 32 → t.pixel x y = false) ∧
    { t with disp := s.disp } = s

/-- DXYN in range (its range check is decision D14; N = 0 accesses nothing): exactly the cells under set bits of the sprite,
placed at (VX mod 64, VY mod 32) and clipped to the screen, are toggled; VF is 1 exactly when such a cell was on, else 0. The
position is read before VF is written (decision D7). -/
def Obligations.DrawTogglesVisibleBits : Prop :=
  ∀ (x y : Reg) (n : BitVec 4) (s : State), n.toNat = 0 ∨ s.i.toNat + n.toNat - 1 ≤ 4095 →
    ∃ t, exec (.drw x y n) s = .next t ∧
      (∀ u w, u < 64 → w < 32 → (t.pixel u w ≠ s.pixel u w ↔
        spriteBit s n.toNat ((s.reg x).toNat % 64) ((s.reg y).toNat % 32) u w)) ∧
      (t.reg 15 = 0 ∨ t.reg 15 = 1) ∧
      (t.reg 15 = 1 ↔ ∃ u w, u < 64 ∧ w < 32 ∧ s.pixel u w = true ∧
        spriteBit s n.toNat ((s.reg x).toNat % 64) ((s.reg y).toNat % 32) u w) ∧
      (∀ r, r ≠ 15 → t.reg r = s.reg r) ∧ { t with v := s.v, disp := s.disp } = s

/-- Drawing the same sprite twice at the same position (neither coordinate in VF, which the first draw overwrites) restores
the frame buffer; the second draw collides exactly when a visible set bit fell on a cell that was off. Both follow from R162.
R163 says the second draw collides whenever a set bit is visible, which R162 contradicts where every such cell was on before
the first: assumption log 25. X = F and Y = F are left to `DrawTogglesVisibleBits`. -/
def Obligations.DrawTwiceRestoresDisplay : Prop :=
  ∀ (x y : Reg) (n : BitVec 4) (s t : State), x ≠ 15 → y ≠ 15 → exec (.drw x y n) s = .next t →
    ∃ u, exec (.drw x y n) t = .next u ∧ u.disp = s.disp ∧
      (u.reg 15 = 1 ↔ ∃ a b, a < 64 ∧ b < 32 ∧ s.pixel a b = false ∧
        spriteBit s n.toNat ((s.reg x).toNat % 64) ((s.reg y).toNat % 32) a b)

/-- R164: the display read gives 2048 cells, cell (x, y) at index y*64 + x, and changes no state. -/
def Obligations.DisplayReadIsRowMajor : Prop :=
  ∀ s : State, s.displayRead.length = 2048 ∧
    (∀ x y, x < 64 → y < 32 → s.displayRead[y * 64 + x]? = some (s.pixel x y)) ∧
    perform .displayRead s = .next s

/-! ## Keypad -/

/-- EX9E and EXA1 where VX is a key index (elsewhere they fault, decision D9: `InstructionsEndAsListed`). In auto-release mode
EX9E releases the key always (decision D24), EXA1 where it was pressed. -/
def Obligations.SkipsOnKey : Prop :=
  ∀ (x : Reg) (k : Key) (s : State), (s.reg x).toNat = k.val →
    (∃ t, exec (.skp x) s = .next t ∧
      t.pc.toNat = (if s.key k = true then (s.pc.toNat + 2) % 65536 else s.pc.toNat) ∧
      (s.cfg.autoRelease = false → { t with pc := s.pc } = s) ∧
      (s.cfg.autoRelease = true → t.key k = false ∧ (∀ q, q ≠ k → t.key q = s.key q) ∧ t.lastReleased = some k ∧
        { t with pc := s.pc, keys := s.keys, lastReleased := s.lastReleased } = s)) ∧
    (∃ t, exec (.sknp x) s = .next t ∧
      t.pc.toNat = (if s.key k = true then s.pc.toNat else (s.pc.toNat + 2) % 65536) ∧
      ((s.cfg.autoRelease = false ∨ s.key k = false) → { t with pc := s.pc } = s) ∧
      (s.cfg.autoRelease = true ∧ s.key k = true →
        t.key k = false ∧ (∀ q, q ≠ k → t.key q = s.key q) ∧ t.lastReleased = some k ∧
        { t with pc := s.pc, keys := s.keys, lastReleased := s.lastReleased } = s))

/-- FX0A with its event there: VX is the key; normal mode consumes the release latch, auto-release mode releases the key and
consumes the press latch (that a synthesised release latches is decision D11). -/
def Obligations.KeyWaitTakesEvent : Prop :=
  ∀ (x : Reg) (k : Key) (s : State),
    (s.cfg.autoRelease = false → s.lastReleased = some k →
      ∃ t, exec (.ldVxK x) s = .next t ∧ (t.reg x).toNat = k.val ∧ (∀ r, r ≠ x → t.reg r = s.reg r) ∧
        t.lastReleased = none ∧ { t with v := s.v, lastReleased := s.lastReleased } = s) ∧
    (s.cfg.autoRelease = true → s.lastPressed = some k →
      ∃ t, exec (.ldVxK x) s = .next t ∧ (t.reg x).toNat = k.val ∧ (∀ r, r ≠ x → t.reg r = s.reg r) ∧
        t.lastPressed = none ∧ t.lastReleased = some k ∧ t.key k = false ∧ (∀ q, q ≠ k → t.key q = s.key q) ∧
        { t with v := s.v, keys := s.keys, lastPressed := s.lastPressed, lastReleased := s.lastReleased } = s)

/-- FX0A without its event: the step's net effect on the state is nothing at all, pc included. -/
def Obligations.BlockedKeyWaitHoldsState : Prop :=
  ∀ (x : Reg) (s : State), s.pc.toNat ≤ 0xFFE → decodeWord s.nextWord = .ldVxK x →
    (if s.cfg.autoRelease then s.lastPressed else s.lastReleased) = none →
    step s = .next { s with reportOut := .noError, started := true }

/-- R30, R175: of the instructions only FX0A clears a latch, and only the one its mode waits on. -/
def Obligations.OnlyKeyWaitClearsLatches : Prop :=
  ∀ s t : State, step s = .next t →
    (s.lastPressed ≠ none → t.lastPressed = none →
      s.cfg.autoRelease = true ∧ ∃ x, decodeWord s.nextWord = .ldVxK x) ∧
    (s.lastReleased ≠ none → t.lastReleased = none →
      s.cfg.autoRelease = false ∧ ∃ x, decodeWord s.nextWord = .ldVxK x)

/-- R175: in normal mode no step depends on the press latch, and in auto-release mode none on the release latch. -/
def Obligations.OtherLatchIsNeverRead : Prop :=
  ∀ (s t : State) (latch : Option Key), step s = .next t →
    (s.cfg.autoRelease = false → step { s with lastPressed := latch } = .next { t with lastPressed := latch }) ∧
    (s.cfg.autoRelease = true →
      ∃ u, step { s with lastReleased := latch } = .next u ∧ { u with lastReleased := t.lastReleased } = t)

/-- `KeyPress` and `KeyRelease` of a key 0..15 set its flag and the latch, unconditionally (decision D10); indices of 16 and
above are ignored. -/
def Obligations.KeyEventsSetFlagAndLatch : Prop :=
  ∀ (b : Byte) (s : State),
    (∀ k : Key, b.toNat = k.val →
      (∃ t, perform (.keyPress b) s = .next t ∧ t.key k = true ∧ (∀ q, q ≠ k → t.key q = s.key q) ∧
        t.lastPressed = some k ∧ { t with keys := s.keys, lastPressed := s.lastPressed } = s) ∧
      (∃ t, perform (.keyRelease b) s = .next t ∧ t.key k = false ∧ (∀ q, q ≠ k → t.key q = s.key q) ∧
        t.lastReleased = some k ∧ { t with keys := s.keys, lastReleased := s.lastReleased } = s)) ∧
    (15 < b.toNat → perform (.keyPress b) s = .next s ∧ perform (.keyRelease b) s = .next s)

/-! ## Timers -/

/-- R180, R181, R182: FX07 reads DT into VX, FX15 and FX18 load DT and ST from VX, whole bytes, and nothing else changes. -/
def Obligations.TimerInstructionsMoveBytes : Prop :=
  ∀ (x : Reg) (s : State),
    (∃ t, exec (.ldVxDt x) s = .next t ∧ t.reg x = s.dt ∧ OnlyRegsChanged s t [x]) ∧
    (∃ t, exec (.ldDtVx x) s = .next t ∧ t.dt = s.reg x ∧ { t with dt := s.dt } = s) ∧
    (∃ t, exec (.ldStVx x) s = .next t ∧ t.st = s.reg x ∧ { t with st := s.st } = s)

/-- R183: any number of ticks takes that many off each timer, floored at 0, and changes nothing else (the model's note that
the run has begun aside). -/
def Obligations.TicksCountDownToZero : Prop :=
  ∀ (n : Nat) (s : State), ∃ t, performAll (List.replicate n .tick) s = .next t ∧
    t.dt.toNat = s.dt.toNat - n ∧ t.st.toNat = s.st.toNat - n ∧
    { t with dt := s.dt, st := s.st, started := s.started } = s

/-- R28, R187: nothing reads ST: two steps from states that differ in ST alone end alike but for ST. -/
def Obligations.SoundTimerIsNeverRead : Prop :=
  ∀ (s : State) (b : Byte),
    (∀ t, step s = .next t → ∃ u, step { s with st := b } = .next u ∧ { u with st := t.st } = t) ∧
    (∀ f, step s = .fault f → step { s with st := b } = .fault f)

/-! ## Whole-machine rules -/

/-- The write sets of R38, for every instruction: what an instruction's row does not list is the same after it. Memory is
compared byte by byte (FX33 and FX55 list the bytes at the effective addresses they store to, and no other), the call stack
entry by entry, the keys one by one. That an effect column is the whole effect is decision D19 (assumption log 22). -/
def Obligations.InstructionsWriteOnlyTheirSet : Prop :=
  ∀ (i : Instr) (s t : State) (p : Piece), exec i s = .next t → p ∉ writes s i → p.Same s t

/-- R205, R184: a tick, a key event or a display read changes no register, no pc, no I, no stack, no frame buffer, no memory
and no configuration. -/
def Obligations.HostEventsLeaveProgramState : Prop :=
  ∀ (e : Transaction) (s : State), (e = .tick ∨ (∃ k, e = .keyPress k) ∨ (∃ k, e = .keyRelease k) ∨ e = .displayRead) →
    ∃ t, perform e s = .next t ∧
      { t with dt := s.dt, st := s.st, keys := s.keys, lastPressed := s.lastPressed, lastReleased := s.lastReleased,
               started := s.started } = s

/-- R33: no transaction but `Reset` changes the configuration. -/
def Obligations.ConfigurationIsConstant : Prop :=
  ∀ (e : Transaction) (s t : State), (∀ c, e ≠ .reset c) → perform e s = .next t → t.cfg = s.cfg

/-- Every transaction keeps the invariant, from any state that has it: a step (`perform .step` is `step`), a tick, a key
event, a display read, a load, a Reset. The invariant: memory in canonical form within 4096 bytes, at most 16 stack entries
each an advanced pc, pc at most 0x10FE, a valid configuration, a ROM that ends below the reserved bytes. -/
def Obligations.TransactionsKeepInvariant : Prop :=
  ∀ (e : Transaction) (s t : State), s.Inv → perform e s = .next t → t.Inv

/-- Reset has the invariant, for every valid configuration. -/
def Obligations.ResetHasInvariant : Prop :=
  ∀ c : Config, c.valid = true → (State.resetWith c).Inv

/-- Whatever the host does after a valid Reset, in any order (decision D20), further Resets among it (assumption log 19), the
invariant holds. -/
def Obligations.ReachableStatesHaveInvariant : Prop :=
  ∀ s : State, Reachable s → s.Inv

/-! ## Reset and boot -/

/-- Reset with a valid configuration, from any state: memory is zero but for the font; every register value is the spec's
decision D3 (assumption log 4); the ROM size, the run's mark and the report are the model's (assumption logs 4, 6, 7). -/
def Obligations.ResetSetsEveryPiece : Prop :=
  ∀ (c : Config) (s : State), c.valid = true → ∃ t, perform (.reset c) s = .next t ∧
    t.cfg = c ∧ (∀ r, t.reg r = 0) ∧ t.i = 0 ∧ t.pc.toNat = c.romStart.toNat ∧ t.dt = 0 ∧ t.st = 0 ∧ t.sp = 0 ∧
    (∀ k, t.key k = false) ∧ t.lastPressed = none ∧ t.lastReleased = none ∧ (∀ x y, t.pixel x y = false) ∧
    (∀ (j : Nat) (h : j < 80), t.byteAt (c.fontStart.toNat + j) = c.fontData[j]) ∧
    (∀ a, a < c.fontStart.toNat ∨ c.fontStart.toNat + 80 ≤ a → t.byteAt a = 0) ∧ t.reportOut = .noError ∧
    t.romSize = 0 ∧ t.started = false

/-- R236: before the run, LoadFont of exactly 80 bytes overwrites the font region and nothing else; any other length fails
and changes nothing. -/
def Obligations.FontLoadCopiesEightyBytes : Prop :=
  ∀ (bytes : List Byte) (s : State), s.started = false →
    (∀ h : bytes.length = 80, ∃ t, s.loadFontBytes bytes = (.succeeded, t) ∧ perform (.loadFont bytes) s = .next t ∧
      (∀ (j : Nat) (hj : j < 80), t.byteAt (s.cfg.fontStart.toNat + j) = bytes[j]) ∧
      (∀ a, a < s.cfg.fontStart.toNat ∨ s.cfg.fontStart.toNat + 80 ≤ a → t.byteAt a = s.byteAt a) ∧
      { t with mem := s.mem } = s) ∧
    (bytes.length ≠ 80 → s.loadFontBytes bytes = (.failed, s) ∧ perform (.loadFont bytes) s = .next s)

/-- R237: before the run, LoadRom of at most 4096 - 352 - ROM_START bytes copies them to ROM_START and records their number;
a longer ROM fails and changes nothing. -/
def Obligations.RomLoadCopiesBytesThatFit : Prop :=
  ∀ (bytes : List Byte) (s : State), s.started = false →
    (bytes.length ≤ 4096 - 352 - s.cfg.romStart.toNat →
      ∃ t, s.loadRomBytes bytes = (.succeeded, t) ∧ perform (.loadRom bytes) s = .next t ∧
        (∀ (j : Nat) (hj : j < bytes.length), t.byteAt (s.cfg.romStart.toNat + j) = bytes[j]) ∧
        (∀ a, a < s.cfg.romStart.toNat ∨ s.cfg.romStart.toNat + bytes.length ≤ a → t.byteAt a = s.byteAt a) ∧
        t.romSize = bytes.length ∧ { t with mem := s.mem, romSize := s.romSize } = s) ∧
    (4096 - 352 - s.cfg.romStart.toNat < bytes.length →
      s.loadRomBytes bytes = (.failed, s) ∧ perform (.loadRom bytes) s = .next s)

/-- A load after the first step or tick, and a reset with a configuration out of range, have no behaviour (decisions D23, D3);
steps and ticks begin the run. -/
def Obligations.LateLoadsAndBadResetsFault : Prop :=
  (∀ (bytes : List Byte) (s : State), s.started = true →
    perform (.loadFont bytes) s = .fault .loadAfterRun ∧ perform (.loadRom bytes) s = .fault .loadAfterRun) ∧
  (∀ (c : Config) (s : State), 3744 < c.romStart.toNat ∨ 4096 < c.fontStart.toNat + 80 →
    perform (.reset c) s = .fault .badConfiguration) ∧
  (∀ s t : State, perform .step s = .next t ∨ perform .tick s = .next t → t.started = true)

/-- The first step after Reset and a ROM load runs the ROM's first word (that pc starts at ROM_START is decision D3). -/
def Obligations.FirstStepRunsFirstRomWord : Prop :=
  ∀ (c : Config) (high low : Byte) (rest : List Byte), c.valid = true →
    (high :: low :: rest).length ≤ 4096 - 352 - c.romStart.toNat →
    ∃ s, perform (.loadRom (high :: low :: rest)) (State.resetWith c) = .next s ∧
      step s = exec (decodeWord (wordOfBytes high low))
        { s with pc := c.romStart.setWidth 16 + 2, reportOut := .noError, started := true }
end

