-- ==== Sys2Proof/Laws/Decode.lean ====
section
/-! SUPPORT. The fields of a word, by number, and the fields of a packed word: what encode and decode proofs cite instead of
unfolding bit extraction. -/

namespace Sys2Proof

/-! ## Fields as numbers -/

theorem opFamily_toNat (w : Word) : (opFamily w).toNat = w.toNat / 4096 := by
  have := w.isLt
  simp only [opFamily, BitVec.extractLsb'_toNat, Nat.shiftRight_eq_div_pow]
  omega

theorem opX_val (w : Word) : (opX w).val = w.toNat / 256 % 16 := by
  simp only [opX, BitVec.val_toFin, BitVec.extractLsb'_toNat, Nat.shiftRight_eq_div_pow]

theorem opY_val (w : Word) : (opY w).val = w.toNat / 16 % 16 := by
  simp only [opY, BitVec.val_toFin, BitVec.extractLsb'_toNat, Nat.shiftRight_eq_div_pow]

theorem opN_toNat (w : Word) : (opN w).toNat = w.toNat % 16 := by
  simp only [opN, BitVec.extractLsb'_toNat, Nat.shiftRight_zero]

theorem opNN_toNat (w : Word) : (opNN w).toNat = w.toNat % 256 := by
  simp only [opNN, BitVec.extractLsb'_toNat, Nat.shiftRight_zero]

theorem opNNN_toNat (w : Word) : (opNNN w).toNat = w.toNat % 4096 := by
  simp only [opNNN, BitVec.extractLsb'_toNat, Nat.shiftRight_zero]

/-! ## Packed words as numbers -/

/-- Appending is adding the upper part shifted. -/
theorem toNat_append_add {m n : Nat} (a : BitVec m) (b : BitVec n) : (a ++ b).toNat = a.toNat * 2 ^ n + b.toNat := by
  rw [BitVec.toNat_append, ← Nat.shiftLeft_add_eq_or_of_lt b.isLt, Nat.shiftLeft_eq]

theorem packNNN_toNat (f : BitVec 4) (nnn : BitVec 12) : (packNNN f nnn).toNat = f.toNat * 4096 + nnn.toNat :=
  toNat_append_add f nnn

theorem packXNN_toNat (f : BitVec 4) (x : Reg) (nn : Byte) :
    (packXNN f x nn).toNat = f.toNat * 4096 + x.val * 256 + nn.toNat := by
  unfold packXNN
  rw [toNat_append_add, toNat_append_add, show (BitVec.ofFin (w := 4) x).toNat = x.val from rfl]
  omega

theorem packXYN_toNat (f : BitVec 4) (x y : Reg) (n : BitVec 4) :
    (packXYN f x y n).toNat = f.toNat * 4096 + x.val * 256 + y.val * 16 + n.toNat := by
  unfold packXYN
  rw [toNat_append_add, toNat_append_add, toNat_append_add, show (BitVec.ofFin (w := 4) x).toNat = x.val from rfl,
    show (BitVec.ofFin (w := 4) y).toNat = y.val from rfl]
  omega

theorem wordOfBytes_toNat (high low : Byte) : (wordOfBytes high low).toNat = high.toNat * 256 + low.toNat :=
  toNat_append_add high low

/-! ## Fields of packed words -/

@[simp] theorem opFamily_packNNN (f : BitVec 4) (nnn : BitVec 12) : opFamily (packNNN f nnn) = f :=
  BitVec.eq_of_toNat_eq (by rw [opFamily_toNat, packNNN_toNat]; omega)

@[simp] theorem opNNN_packNNN (f : BitVec 4) (nnn : BitVec 12) : opNNN (packNNN f nnn) = nnn :=
  BitVec.eq_of_toNat_eq (by rw [opNNN_toNat, packNNN_toNat]; omega)

@[simp] theorem opFamily_packXNN (f : BitVec 4) (x : Reg) (nn : Byte) : opFamily (packXNN f x nn) = f :=
  BitVec.eq_of_toNat_eq (by rw [opFamily_toNat, packXNN_toNat]; omega)

@[simp] theorem opX_packXNN (f : BitVec 4) (x : Reg) (nn : Byte) : opX (packXNN f x nn) = x :=
  Fin.ext (by rw [opX_val, packXNN_toNat]; omega)

@[simp] theorem opNN_packXNN (f : BitVec 4) (x : Reg) (nn : Byte) : opNN (packXNN f x nn) = nn :=
  BitVec.eq_of_toNat_eq (by rw [opNN_toNat, packXNN_toNat]; omega)

@[simp] theorem opFamily_packXYN (f : BitVec 4) (x y : Reg) (n : BitVec 4) : opFamily (packXYN f x y n) = f :=
  BitVec.eq_of_toNat_eq (by rw [opFamily_toNat, packXYN_toNat]; omega)

@[simp] theorem opX_packXYN (f : BitVec 4) (x y : Reg) (n : BitVec 4) : opX (packXYN f x y n) = x :=
  Fin.ext (by rw [opX_val, packXYN_toNat]; omega)

@[simp] theorem opY_packXYN (f : BitVec 4) (x y : Reg) (n : BitVec 4) : opY (packXYN f x y n) = y :=
  Fin.ext (by rw [opY_val, packXYN_toNat]; omega)

@[simp] theorem opN_packXYN (f : BitVec 4) (x y : Reg) (n : BitVec 4) : opN (packXYN f x y n) = n :=
  BitVec.eq_of_toNat_eq (by rw [opN_toNat, packXYN_toNat]; omega)

/-! ## A word is its fields -/

theorem packNNN_fields (w : Word) : packNNN (opFamily w) (opNNN w) = w :=
  BitVec.eq_of_toNat_eq (by rw [packNNN_toNat, opFamily_toNat, opNNN_toNat]; omega)

theorem packXNN_fields (w : Word) : packXNN (opFamily w) (opX w) (opNN w) = w :=
  BitVec.eq_of_toNat_eq (by rw [packXNN_toNat, opFamily_toNat, opX_val, opNN_toNat]; omega)

theorem packXYN_fields (w : Word) : packXYN (opFamily w) (opX w) (opY w) (opN w) = w :=
  BitVec.eq_of_toNat_eq (by rw [packXYN_toNat, opFamily_toNat, opX_val, opY_val, opN_toNat]; omega)

/-- A word is the big-endian combination of its two bytes (R52). -/
theorem wordOfBytes_bytes (w : Word) : wordOfBytes (wordHigh w) (wordLow w) = w :=
  BitVec.eq_of_toNat_eq (by
    have := w.isLt
    rw [wordOfBytes_toNat]
    simp only [wordHigh, wordLow, BitVec.extractLsb'_toNat, Nat.shiftRight_eq_div_pow]
    omega)

/-- Decoding a word's own bytes decodes the word. -/
theorem decode_bytesOfWord (w : Word) (rest : List Byte) :
    decode (bytesOfWord w ++ rest) = .ok (decodeWord w, rest) := by
  simp only [bytesOfWord, List.cons_append, List.nil_append, decode, wordOfBytes_bytes]

end Sys2Proof
end

