-- ==== Sys2Proof/Laws/Memory.lean ====
section
/-! SUPPORT. The laws of memory as data: a read after a write gives the value written, a write leaves every other address
alone, and every operation keeps the canonical form. -/

namespace Sys2Proof.Machine

variable {boot : Nat → Byte} {m : Memory} {a c low : Nat} {b : Byte}

theorem Memory.find_put (m : Memory) (a c : Nat) (b : Byte) :
    Memory.find (Memory.put m a b) c = if a = c then some b else Memory.find m c := by
  fun_induction Memory.put m a b with
  | case1 => simp [Memory.find]
  | case2 => simp [Memory.find]
  | case3 => simp only [Memory.find]; grind
  | case4 k d rest a b _ _ ih => simp only [Memory.find, ih]; grind

theorem Memory.find_drop (m : Memory) (a c : Nat) :
    Memory.find (Memory.drop m a) c = if a = c then none else Memory.find m c := by
  induction m with
  | nil => simp [Memory.drop, Memory.find]
  | cons e rest ih => simp only [Memory.drop, Memory.find]; grind [Memory.find]

/-- Read after write. -/
theorem Memory.read_write (boot : Nat → Byte) (m : Memory) (a c : Nat) (b : Byte) :
    Memory.read boot (Memory.write boot m a b) c = if a = c then b else Memory.read boot m c := by
  unfold Memory.read Memory.write
  split
  · rw [Memory.find_drop]; split <;> simp_all
  · rw [Memory.find_put]; split <;> simp_all

/-- Everything a run of stores does to the bytes read back. -/
theorem Memory.read_writeAll (boot : Nat → Byte) (bytes : List Byte) (m : Memory) (a c : Nat) :
    Memory.read boot (Memory.writeAll boot m a bytes) c =
      if h : a ≤ c ∧ c < a + bytes.length then bytes[c - a] else Memory.read boot m c := by
  induction bytes generalizing m a with
  | nil => simp [Memory.writeAll]
  | cons b rest ih =>
    rw [Memory.writeAll, ih, Memory.read_write]
    by_cases hc : a = c
    · subst hc; simp
    · by_cases h : a + 1 ≤ c ∧ c < a + 1 + rest.length
      · have h' : a ≤ c ∧ c < a + (b :: rest).length := by simp; omega
        have e : c - a = c - (a + 1) + 1 := by omega
        rw [dif_pos h, dif_pos h']; simp only [e, List.getElem_cons_succ]
      · have h' : ¬ (a ≤ c ∧ c < a + (b :: rest).length) := by simp; omega
        rw [dif_neg h, dif_neg h', if_neg hc]

theorem Memory.rising_mono {low' : Nat} (h : Memory.rising low m = true) (hl : low' ≤ low) :
    Memory.rising low' m = true := by
  cases m with
  | nil => rfl
  | cons e rest => simp only [Memory.rising, Bool.and_eq_true, decide_eq_true_eq] at *; exact ⟨by omega, h.2⟩

/-- An address below every listed one is not listed. -/
theorem Memory.find_below (h : Memory.rising low m = true) (ha : a < low) : Memory.find m a = none := by
  induction m generalizing low with
  | nil => rfl
  | cons e rest ih =>
    simp only [Memory.rising, Bool.and_eq_true, decide_eq_true_eq] at h
    rw [Memory.find, if_neg (by omega)]
    exact ih h.2 (by omega)

theorem Memory.rising_put (h : Memory.rising low m = true) (ha : low ≤ a) :
    Memory.rising low (Memory.put m a b) = true := by
  induction m generalizing low with
  | nil => simp [Memory.put, Memory.rising, ha]
  | cons e rest ih =>
    simp only [Memory.rising, Bool.and_eq_true, decide_eq_true_eq] at h
    unfold Memory.put
    split
    · simp only [Memory.rising, Bool.and_eq_true, decide_eq_true_eq]; exact ⟨ha, by omega, h.2⟩
    · split
      · next e2 => subst e2; simp only [Memory.rising, Bool.and_eq_true, decide_eq_true_eq]; exact ⟨ha, h.2⟩
      · simp only [Memory.rising, Bool.and_eq_true, decide_eq_true_eq]; exact ⟨h.1, ih h.2 (by omega)⟩

theorem Memory.rising_drop (h : Memory.rising low m = true) : Memory.rising low (Memory.drop m a) = true := by
  induction m generalizing low with
  | nil => rfl
  | cons e rest ih =>
    simp only [Memory.rising, Bool.and_eq_true, decide_eq_true_eq] at h
    unfold Memory.drop
    split
    · exact Memory.rising_mono (ih h.2) (by omega)
    · simp only [Memory.rising, Bool.and_eq_true, decide_eq_true_eq]; exact ⟨h.1, ih h.2⟩

theorem Memory.mem_put {e : Host.Cell} (h : e ∈ Memory.put m a b) : e = (a, b) ∨ e ∈ m := by
  induction m with
  | nil => exact .inl (List.mem_singleton.mp h)
  | cons f rest ih =>
    unfold Memory.put at h
    split at h
    · exact (List.mem_cons.mp h).imp_right id
    · split at h
      · exact (List.mem_cons.mp h).imp_right (List.mem_cons_of_mem _)
      · rcases List.mem_cons.mp h with h | h
        · exact .inr (h ▸ List.mem_cons_self)
        · exact (ih h).imp_right (List.mem_cons_of_mem _)

theorem Memory.mem_drop {e : Host.Cell} (h : e ∈ Memory.drop m a) : e ∈ m := by
  induction m with
  | nil => exact h
  | cons f rest ih =>
    unfold Memory.drop at h
    split at h
    · exact List.mem_cons_of_mem _ (ih h)
    · rcases List.mem_cons.mp h with h | h
      · exact h ▸ List.mem_cons_self
      · exact List.mem_cons_of_mem _ (ih h)

/-- A store within memory keeps the canonical form. -/
theorem Memory.wf_write (h : Memory.wf boot m = true) (ha : a < 4096) :
    Memory.wf boot (Memory.write boot m a b) = true := by
  simp only [Memory.wf, Bool.and_eq_true, List.all_eq_true, decide_eq_true_eq, bne_iff_ne] at h ⊢
  unfold Memory.write
  split
  · exact ⟨Memory.rising_drop h.1, fun e he => h.2 e (Memory.mem_drop he)⟩
  · refine ⟨Memory.rising_put h.1 (Nat.zero_le _), fun e he => ?_⟩
    rcases Memory.mem_put he with rfl | he
    · exact ⟨ha, ‹_›⟩
    · exact h.2 e he

/-- A run of stores within memory keeps the canonical form. -/
theorem Memory.wf_writeAll (bytes : List Byte) (h : Memory.wf boot m = true) (ha : a + bytes.length ≤ 4096) :
    Memory.wf boot (Memory.writeAll boot m a bytes) = true := by
  induction bytes generalizing m a with
  | nil => exact h
  | cons b rest ih =>
    simp only [List.length_cons] at ha
    exact ih (Memory.wf_write h (by omega)) (by omega)

/-- Memory at reset has the canonical form. -/
theorem Memory.wf_nil (boot : Nat → Byte) : Memory.wf boot [] = true := rfl

end Sys2Proof.Machine
end

