-- ==== Sys2Proof/Laws/State.lean ====
section
/-! SUPPORT. One lemma per field per update of the state, true by rfl, so that no later proof unfolds a record update. -/

namespace Sys2Proof.Machine

variable (s : State)

/-! ## Write of a general register. -/

@[simp] theorem State.setReg_cfg (r : Reg) (b : Byte) : (s.setReg r b).cfg = s.cfg := rfl
@[simp] theorem State.setReg_v (r : Reg) (b : Byte) : (s.setReg r b).v = s.v.set r.val b := rfl
@[simp] theorem State.setReg_i (r : Reg) (b : Byte) : (s.setReg r b).i = s.i := rfl
@[simp] theorem State.setReg_pc (r : Reg) (b : Byte) : (s.setReg r b).pc = s.pc := rfl
@[simp] theorem State.setReg_dt (r : Reg) (b : Byte) : (s.setReg r b).dt = s.dt := rfl
@[simp] theorem State.setReg_st (r : Reg) (b : Byte) : (s.setReg r b).st = s.st := rfl
@[simp] theorem State.setReg_stack (r : Reg) (b : Byte) : (s.setReg r b).stack = s.stack := rfl
@[simp] theorem State.setReg_keys (r : Reg) (b : Byte) : (s.setReg r b).keys = s.keys := rfl
@[simp] theorem State.setReg_lastPressed (r : Reg) (b : Byte) : (s.setReg r b).lastPressed = s.lastPressed := rfl
@[simp] theorem State.setReg_lastReleased (r : Reg) (b : Byte) : (s.setReg r b).lastReleased = s.lastReleased := rfl
@[simp] theorem State.setReg_disp (r : Reg) (b : Byte) : (s.setReg r b).disp = s.disp := rfl
@[simp] theorem State.setReg_mem (r : Reg) (b : Byte) : (s.setReg r b).mem = s.mem := rfl
@[simp] theorem State.setReg_romSize (r : Reg) (b : Byte) : (s.setReg r b).romSize = s.romSize := rfl
@[simp] theorem State.setReg_reportOut (r : Reg) (b : Byte) : (s.setReg r b).reportOut = s.reportOut := rfl
@[simp] theorem State.setReg_started (r : Reg) (b : Byte) : (s.setReg r b).started = s.started := rfl
@[simp] theorem State.setReg_draws (r : Reg) (b : Byte) : (s.setReg r b).draws = s.draws := rfl

/-! ## Write of I. -/

@[simp] theorem State.setI_cfg (w : Word) : (s.setI w).cfg = s.cfg := rfl
@[simp] theorem State.setI_v (w : Word) : (s.setI w).v = s.v := rfl
@[simp] theorem State.setI_i (w : Word) : (s.setI w).i = w := rfl
@[simp] theorem State.setI_pc (w : Word) : (s.setI w).pc = s.pc := rfl
@[simp] theorem State.setI_dt (w : Word) : (s.setI w).dt = s.dt := rfl
@[simp] theorem State.setI_st (w : Word) : (s.setI w).st = s.st := rfl
@[simp] theorem State.setI_stack (w : Word) : (s.setI w).stack = s.stack := rfl
@[simp] theorem State.setI_keys (w : Word) : (s.setI w).keys = s.keys := rfl
@[simp] theorem State.setI_lastPressed (w : Word) : (s.setI w).lastPressed = s.lastPressed := rfl
@[simp] theorem State.setI_lastReleased (w : Word) : (s.setI w).lastReleased = s.lastReleased := rfl
@[simp] theorem State.setI_disp (w : Word) : (s.setI w).disp = s.disp := rfl
@[simp] theorem State.setI_mem (w : Word) : (s.setI w).mem = s.mem := rfl
@[simp] theorem State.setI_romSize (w : Word) : (s.setI w).romSize = s.romSize := rfl
@[simp] theorem State.setI_reportOut (w : Word) : (s.setI w).reportOut = s.reportOut := rfl
@[simp] theorem State.setI_started (w : Word) : (s.setI w).started = s.started := rfl
@[simp] theorem State.setI_draws (w : Word) : (s.setI w).draws = s.draws := rfl

/-! ## Write of pc. -/

@[simp] theorem State.setPc_cfg (w : Word) : (s.setPc w).cfg = s.cfg := rfl
@[simp] theorem State.setPc_v (w : Word) : (s.setPc w).v = s.v := rfl
@[simp] theorem State.setPc_i (w : Word) : (s.setPc w).i = s.i := rfl
@[simp] theorem State.setPc_pc (w : Word) : (s.setPc w).pc = w := rfl
@[simp] theorem State.setPc_dt (w : Word) : (s.setPc w).dt = s.dt := rfl
@[simp] theorem State.setPc_st (w : Word) : (s.setPc w).st = s.st := rfl
@[simp] theorem State.setPc_stack (w : Word) : (s.setPc w).stack = s.stack := rfl
@[simp] theorem State.setPc_keys (w : Word) : (s.setPc w).keys = s.keys := rfl
@[simp] theorem State.setPc_lastPressed (w : Word) : (s.setPc w).lastPressed = s.lastPressed := rfl
@[simp] theorem State.setPc_lastReleased (w : Word) : (s.setPc w).lastReleased = s.lastReleased := rfl
@[simp] theorem State.setPc_disp (w : Word) : (s.setPc w).disp = s.disp := rfl
@[simp] theorem State.setPc_mem (w : Word) : (s.setPc w).mem = s.mem := rfl
@[simp] theorem State.setPc_romSize (w : Word) : (s.setPc w).romSize = s.romSize := rfl
@[simp] theorem State.setPc_reportOut (w : Word) : (s.setPc w).reportOut = s.reportOut := rfl
@[simp] theorem State.setPc_started (w : Word) : (s.setPc w).started = s.started := rfl
@[simp] theorem State.setPc_draws (w : Word) : (s.setPc w).draws = s.draws := rfl

/-! ## Write of DT. -/

@[simp] theorem State.setDT_cfg (b : Byte) : (s.setDT b).cfg = s.cfg := rfl
@[simp] theorem State.setDT_v (b : Byte) : (s.setDT b).v = s.v := rfl
@[simp] theorem State.setDT_i (b : Byte) : (s.setDT b).i = s.i := rfl
@[simp] theorem State.setDT_pc (b : Byte) : (s.setDT b).pc = s.pc := rfl
@[simp] theorem State.setDT_dt (b : Byte) : (s.setDT b).dt = b := rfl
@[simp] theorem State.setDT_st (b : Byte) : (s.setDT b).st = s.st := rfl
@[simp] theorem State.setDT_stack (b : Byte) : (s.setDT b).stack = s.stack := rfl
@[simp] theorem State.setDT_keys (b : Byte) : (s.setDT b).keys = s.keys := rfl
@[simp] theorem State.setDT_lastPressed (b : Byte) : (s.setDT b).lastPressed = s.lastPressed := rfl
@[simp] theorem State.setDT_lastReleased (b : Byte) : (s.setDT b).lastReleased = s.lastReleased := rfl
@[simp] theorem State.setDT_disp (b : Byte) : (s.setDT b).disp = s.disp := rfl
@[simp] theorem State.setDT_mem (b : Byte) : (s.setDT b).mem = s.mem := rfl
@[simp] theorem State.setDT_romSize (b : Byte) : (s.setDT b).romSize = s.romSize := rfl
@[simp] theorem State.setDT_reportOut (b : Byte) : (s.setDT b).reportOut = s.reportOut := rfl
@[simp] theorem State.setDT_started (b : Byte) : (s.setDT b).started = s.started := rfl
@[simp] theorem State.setDT_draws (b : Byte) : (s.setDT b).draws = s.draws := rfl

/-! ## Write of ST. -/

@[simp] theorem State.setST_cfg (b : Byte) : (s.setST b).cfg = s.cfg := rfl
@[simp] theorem State.setST_v (b : Byte) : (s.setST b).v = s.v := rfl
@[simp] theorem State.setST_i (b : Byte) : (s.setST b).i = s.i := rfl
@[simp] theorem State.setST_pc (b : Byte) : (s.setST b).pc = s.pc := rfl
@[simp] theorem State.setST_dt (b : Byte) : (s.setST b).dt = s.dt := rfl
@[simp] theorem State.setST_st (b : Byte) : (s.setST b).st = b := rfl
@[simp] theorem State.setST_stack (b : Byte) : (s.setST b).stack = s.stack := rfl
@[simp] theorem State.setST_keys (b : Byte) : (s.setST b).keys = s.keys := rfl
@[simp] theorem State.setST_lastPressed (b : Byte) : (s.setST b).lastPressed = s.lastPressed := rfl
@[simp] theorem State.setST_lastReleased (b : Byte) : (s.setST b).lastReleased = s.lastReleased := rfl
@[simp] theorem State.setST_disp (b : Byte) : (s.setST b).disp = s.disp := rfl
@[simp] theorem State.setST_mem (b : Byte) : (s.setST b).mem = s.mem := rfl
@[simp] theorem State.setST_romSize (b : Byte) : (s.setST b).romSize = s.romSize := rfl
@[simp] theorem State.setST_reportOut (b : Byte) : (s.setST b).reportOut = s.reportOut := rfl
@[simp] theorem State.setST_started (b : Byte) : (s.setST b).started = s.started := rfl
@[simp] theorem State.setST_draws (b : Byte) : (s.setST b).draws = s.draws := rfl

/-! ## A draw is consumed. -/

@[simp] theorem State.consumeDraw_cfg : s.consumeDraw.cfg = s.cfg := rfl
@[simp] theorem State.consumeDraw_v : s.consumeDraw.v = s.v := rfl
@[simp] theorem State.consumeDraw_i : s.consumeDraw.i = s.i := rfl
@[simp] theorem State.consumeDraw_pc : s.consumeDraw.pc = s.pc := rfl
@[simp] theorem State.consumeDraw_dt : s.consumeDraw.dt = s.dt := rfl
@[simp] theorem State.consumeDraw_st : s.consumeDraw.st = s.st := rfl
@[simp] theorem State.consumeDraw_stack : s.consumeDraw.stack = s.stack := rfl
@[simp] theorem State.consumeDraw_keys : s.consumeDraw.keys = s.keys := rfl
@[simp] theorem State.consumeDraw_lastPressed : s.consumeDraw.lastPressed = s.lastPressed := rfl
@[simp] theorem State.consumeDraw_lastReleased : s.consumeDraw.lastReleased = s.lastReleased := rfl
@[simp] theorem State.consumeDraw_disp : s.consumeDraw.disp = s.disp := rfl
@[simp] theorem State.consumeDraw_mem : s.consumeDraw.mem = s.mem := rfl
@[simp] theorem State.consumeDraw_romSize : s.consumeDraw.romSize = s.romSize := rfl
@[simp] theorem State.consumeDraw_reportOut : s.consumeDraw.reportOut = s.reportOut := rfl
@[simp] theorem State.consumeDraw_started : s.consumeDraw.started = s.started := rfl
@[simp] theorem State.consumeDraw_draws : s.consumeDraw.draws = s.draws + 1 := rfl

/-! ## A call-stack push. -/

@[simp] theorem State.push_cfg (w : Word) : (s.push w).cfg = s.cfg := rfl
@[simp] theorem State.push_v (w : Word) : (s.push w).v = s.v := rfl
@[simp] theorem State.push_i (w : Word) : (s.push w).i = s.i := rfl
@[simp] theorem State.push_pc (w : Word) : (s.push w).pc = s.pc := rfl
@[simp] theorem State.push_dt (w : Word) : (s.push w).dt = s.dt := rfl
@[simp] theorem State.push_st (w : Word) : (s.push w).st = s.st := rfl
@[simp] theorem State.push_stack (w : Word) : (s.push w).stack = w :: s.stack := rfl
@[simp] theorem State.push_keys (w : Word) : (s.push w).keys = s.keys := rfl
@[simp] theorem State.push_lastPressed (w : Word) : (s.push w).lastPressed = s.lastPressed := rfl
@[simp] theorem State.push_lastReleased (w : Word) : (s.push w).lastReleased = s.lastReleased := rfl
@[simp] theorem State.push_disp (w : Word) : (s.push w).disp = s.disp := rfl
@[simp] theorem State.push_mem (w : Word) : (s.push w).mem = s.mem := rfl
@[simp] theorem State.push_romSize (w : Word) : (s.push w).romSize = s.romSize := rfl
@[simp] theorem State.push_reportOut (w : Word) : (s.push w).reportOut = s.reportOut := rfl
@[simp] theorem State.push_started (w : Word) : (s.push w).started = s.started := rfl
@[simp] theorem State.push_draws (w : Word) : (s.push w).draws = s.draws := rfl

/-! ## The report output. -/

@[simp] theorem State.report_cfg (e : Report) : (s.report e).cfg = s.cfg := rfl
@[simp] theorem State.report_v (e : Report) : (s.report e).v = s.v := rfl
@[simp] theorem State.report_i (e : Report) : (s.report e).i = s.i := rfl
@[simp] theorem State.report_pc (e : Report) : (s.report e).pc = s.pc := rfl
@[simp] theorem State.report_dt (e : Report) : (s.report e).dt = s.dt := rfl
@[simp] theorem State.report_st (e : Report) : (s.report e).st = s.st := rfl
@[simp] theorem State.report_stack (e : Report) : (s.report e).stack = s.stack := rfl
@[simp] theorem State.report_keys (e : Report) : (s.report e).keys = s.keys := rfl
@[simp] theorem State.report_lastPressed (e : Report) : (s.report e).lastPressed = s.lastPressed := rfl
@[simp] theorem State.report_lastReleased (e : Report) : (s.report e).lastReleased = s.lastReleased := rfl
@[simp] theorem State.report_disp (e : Report) : (s.report e).disp = s.disp := rfl
@[simp] theorem State.report_mem (e : Report) : (s.report e).mem = s.mem := rfl
@[simp] theorem State.report_romSize (e : Report) : (s.report e).romSize = s.romSize := rfl
@[simp] theorem State.report_reportOut (e : Report) : (s.report e).reportOut = e := rfl
@[simp] theorem State.report_started (e : Report) : (s.report e).started = s.started := rfl
@[simp] theorem State.report_draws (e : Report) : (s.report e).draws = s.draws := rfl

/-! ## A key press. -/

@[simp] theorem State.press_cfg (k : Key) : (s.press k).cfg = s.cfg := rfl
@[simp] theorem State.press_v (k : Key) : (s.press k).v = s.v := rfl
@[simp] theorem State.press_i (k : Key) : (s.press k).i = s.i := rfl
@[simp] theorem State.press_pc (k : Key) : (s.press k).pc = s.pc := rfl
@[simp] theorem State.press_dt (k : Key) : (s.press k).dt = s.dt := rfl
@[simp] theorem State.press_st (k : Key) : (s.press k).st = s.st := rfl
@[simp] theorem State.press_stack (k : Key) : (s.press k).stack = s.stack := rfl
@[simp] theorem State.press_keys (k : Key) : (s.press k).keys = s.keys.set k.val true := rfl
@[simp] theorem State.press_lastPressed (k : Key) : (s.press k).lastPressed = some k := rfl
@[simp] theorem State.press_lastReleased (k : Key) : (s.press k).lastReleased = s.lastReleased := rfl
@[simp] theorem State.press_disp (k : Key) : (s.press k).disp = s.disp := rfl
@[simp] theorem State.press_mem (k : Key) : (s.press k).mem = s.mem := rfl
@[simp] theorem State.press_romSize (k : Key) : (s.press k).romSize = s.romSize := rfl
@[simp] theorem State.press_reportOut (k : Key) : (s.press k).reportOut = s.reportOut := rfl
@[simp] theorem State.press_started (k : Key) : (s.press k).started = s.started := rfl
@[simp] theorem State.press_draws (k : Key) : (s.press k).draws = s.draws := rfl

/-! ## A key release. -/

@[simp] theorem State.release_cfg (k : Key) : (s.release k).cfg = s.cfg := rfl
@[simp] theorem State.release_v (k : Key) : (s.release k).v = s.v := rfl
@[simp] theorem State.release_i (k : Key) : (s.release k).i = s.i := rfl
@[simp] theorem State.release_pc (k : Key) : (s.release k).pc = s.pc := rfl
@[simp] theorem State.release_dt (k : Key) : (s.release k).dt = s.dt := rfl
@[simp] theorem State.release_st (k : Key) : (s.release k).st = s.st := rfl
@[simp] theorem State.release_stack (k : Key) : (s.release k).stack = s.stack := rfl
@[simp] theorem State.release_keys (k : Key) : (s.release k).keys = s.keys.set k.val false := rfl
@[simp] theorem State.release_lastPressed (k : Key) : (s.release k).lastPressed = s.lastPressed := rfl
@[simp] theorem State.release_lastReleased (k : Key) : (s.release k).lastReleased = some k := rfl
@[simp] theorem State.release_disp (k : Key) : (s.release k).disp = s.disp := rfl
@[simp] theorem State.release_mem (k : Key) : (s.release k).mem = s.mem := rfl
@[simp] theorem State.release_romSize (k : Key) : (s.release k).romSize = s.romSize := rfl
@[simp] theorem State.release_reportOut (k : Key) : (s.release k).reportOut = s.reportOut := rfl
@[simp] theorem State.release_started (k : Key) : (s.release k).started = s.started := rfl
@[simp] theorem State.release_draws (k : Key) : (s.release k).draws = s.draws := rfl

/-! ## The release latch is consumed. -/

@[simp] theorem State.consumeReleased_cfg : s.consumeReleased.cfg = s.cfg := rfl
@[simp] theorem State.consumeReleased_v : s.consumeReleased.v = s.v := rfl
@[simp] theorem State.consumeReleased_i : s.consumeReleased.i = s.i := rfl
@[simp] theorem State.consumeReleased_pc : s.consumeReleased.pc = s.pc := rfl
@[simp] theorem State.consumeReleased_dt : s.consumeReleased.dt = s.dt := rfl
@[simp] theorem State.consumeReleased_st : s.consumeReleased.st = s.st := rfl
@[simp] theorem State.consumeReleased_stack : s.consumeReleased.stack = s.stack := rfl
@[simp] theorem State.consumeReleased_keys : s.consumeReleased.keys = s.keys := rfl
@[simp] theorem State.consumeReleased_lastPressed : s.consumeReleased.lastPressed = s.lastPressed := rfl
@[simp] theorem State.consumeReleased_lastReleased : s.consumeReleased.lastReleased = none := rfl
@[simp] theorem State.consumeReleased_disp : s.consumeReleased.disp = s.disp := rfl
@[simp] theorem State.consumeReleased_mem : s.consumeReleased.mem = s.mem := rfl
@[simp] theorem State.consumeReleased_romSize : s.consumeReleased.romSize = s.romSize := rfl
@[simp] theorem State.consumeReleased_reportOut : s.consumeReleased.reportOut = s.reportOut := rfl
@[simp] theorem State.consumeReleased_started : s.consumeReleased.started = s.started := rfl
@[simp] theorem State.consumeReleased_draws : s.consumeReleased.draws = s.draws := rfl

/-! ## The press latch is consumed. -/

@[simp] theorem State.consumePressed_cfg : s.consumePressed.cfg = s.cfg := rfl
@[simp] theorem State.consumePressed_v : s.consumePressed.v = s.v := rfl
@[simp] theorem State.consumePressed_i : s.consumePressed.i = s.i := rfl
@[simp] theorem State.consumePressed_pc : s.consumePressed.pc = s.pc := rfl
@[simp] theorem State.consumePressed_dt : s.consumePressed.dt = s.dt := rfl
@[simp] theorem State.consumePressed_st : s.consumePressed.st = s.st := rfl
@[simp] theorem State.consumePressed_stack : s.consumePressed.stack = s.stack := rfl
@[simp] theorem State.consumePressed_keys : s.consumePressed.keys = s.keys := rfl
@[simp] theorem State.consumePressed_lastPressed : s.consumePressed.lastPressed = none := rfl
@[simp] theorem State.consumePressed_lastReleased : s.consumePressed.lastReleased = s.lastReleased := rfl
@[simp] theorem State.consumePressed_disp : s.consumePressed.disp = s.disp := rfl
@[simp] theorem State.consumePressed_mem : s.consumePressed.mem = s.mem := rfl
@[simp] theorem State.consumePressed_romSize : s.consumePressed.romSize = s.romSize := rfl
@[simp] theorem State.consumePressed_reportOut : s.consumePressed.reportOut = s.reportOut := rfl
@[simp] theorem State.consumePressed_started : s.consumePressed.started = s.started := rfl
@[simp] theorem State.consumePressed_draws : s.consumePressed.draws = s.draws := rfl

/-! ## Write of the frame buffer. -/

@[simp] theorem State.setDisp_cfg (d : Display) : (s.setDisp d).cfg = s.cfg := rfl
@[simp] theorem State.setDisp_v (d : Display) : (s.setDisp d).v = s.v := rfl
@[simp] theorem State.setDisp_i (d : Display) : (s.setDisp d).i = s.i := rfl
@[simp] theorem State.setDisp_pc (d : Display) : (s.setDisp d).pc = s.pc := rfl
@[simp] theorem State.setDisp_dt (d : Display) : (s.setDisp d).dt = s.dt := rfl
@[simp] theorem State.setDisp_st (d : Display) : (s.setDisp d).st = s.st := rfl
@[simp] theorem State.setDisp_stack (d : Display) : (s.setDisp d).stack = s.stack := rfl
@[simp] theorem State.setDisp_keys (d : Display) : (s.setDisp d).keys = s.keys := rfl
@[simp] theorem State.setDisp_lastPressed (d : Display) : (s.setDisp d).lastPressed = s.lastPressed := rfl
@[simp] theorem State.setDisp_lastReleased (d : Display) : (s.setDisp d).lastReleased = s.lastReleased := rfl
@[simp] theorem State.setDisp_disp (d : Display) : (s.setDisp d).disp = d := rfl
@[simp] theorem State.setDisp_mem (d : Display) : (s.setDisp d).mem = s.mem := rfl
@[simp] theorem State.setDisp_romSize (d : Display) : (s.setDisp d).romSize = s.romSize := rfl
@[simp] theorem State.setDisp_reportOut (d : Display) : (s.setDisp d).reportOut = s.reportOut := rfl
@[simp] theorem State.setDisp_started (d : Display) : (s.setDisp d).started = s.started := rfl
@[simp] theorem State.setDisp_draws (d : Display) : (s.setDisp d).draws = s.draws := rfl

/-! ## A store to memory. -/

@[simp] theorem State.storeBytes_cfg (a : Nat) (bytes : List Byte) : (s.storeBytes a bytes).cfg = s.cfg := rfl
@[simp] theorem State.storeBytes_v (a : Nat) (bytes : List Byte) : (s.storeBytes a bytes).v = s.v := rfl
@[simp] theorem State.storeBytes_i (a : Nat) (bytes : List Byte) : (s.storeBytes a bytes).i = s.i := rfl
@[simp] theorem State.storeBytes_pc (a : Nat) (bytes : List Byte) : (s.storeBytes a bytes).pc = s.pc := rfl
@[simp] theorem State.storeBytes_dt (a : Nat) (bytes : List Byte) : (s.storeBytes a bytes).dt = s.dt := rfl
@[simp] theorem State.storeBytes_st (a : Nat) (bytes : List Byte) : (s.storeBytes a bytes).st = s.st := rfl
@[simp] theorem State.storeBytes_stack (a : Nat) (bytes : List Byte) : (s.storeBytes a bytes).stack = s.stack := rfl
@[simp] theorem State.storeBytes_keys (a : Nat) (bytes : List Byte) : (s.storeBytes a bytes).keys = s.keys := rfl
@[simp] theorem State.storeBytes_lastPressed (a : Nat) (bytes : List Byte) : (s.storeBytes a bytes).lastPressed = s.lastPressed := rfl
@[simp] theorem State.storeBytes_lastReleased (a : Nat) (bytes : List Byte) : (s.storeBytes a bytes).lastReleased = s.lastReleased := rfl
@[simp] theorem State.storeBytes_disp (a : Nat) (bytes : List Byte) : (s.storeBytes a bytes).disp = s.disp := rfl
@[simp] theorem State.storeBytes_mem (a : Nat) (bytes : List Byte) : (s.storeBytes a bytes).mem = Memory.writeAll s.boot s.mem a bytes := rfl
@[simp] theorem State.storeBytes_romSize (a : Nat) (bytes : List Byte) : (s.storeBytes a bytes).romSize = s.romSize := rfl
@[simp] theorem State.storeBytes_reportOut (a : Nat) (bytes : List Byte) : (s.storeBytes a bytes).reportOut = s.reportOut := rfl
@[simp] theorem State.storeBytes_started (a : Nat) (bytes : List Byte) : (s.storeBytes a bytes).started = s.started := rfl
@[simp] theorem State.storeBytes_draws (a : Nat) (bytes : List Byte) : (s.storeBytes a bytes).draws = s.draws := rfl

/-! ## A load of V0..VX. -/

@[simp] theorem State.loadRegs_cfg (a : Nat) (r : Reg) : (s.loadRegs a r).cfg = s.cfg := rfl
@[simp] theorem State.loadRegs_i (a : Nat) (r : Reg) : (s.loadRegs a r).i = s.i := rfl
@[simp] theorem State.loadRegs_pc (a : Nat) (r : Reg) : (s.loadRegs a r).pc = s.pc := rfl
@[simp] theorem State.loadRegs_dt (a : Nat) (r : Reg) : (s.loadRegs a r).dt = s.dt := rfl
@[simp] theorem State.loadRegs_st (a : Nat) (r : Reg) : (s.loadRegs a r).st = s.st := rfl
@[simp] theorem State.loadRegs_stack (a : Nat) (r : Reg) : (s.loadRegs a r).stack = s.stack := rfl
@[simp] theorem State.loadRegs_keys (a : Nat) (r : Reg) : (s.loadRegs a r).keys = s.keys := rfl
@[simp] theorem State.loadRegs_lastPressed (a : Nat) (r : Reg) : (s.loadRegs a r).lastPressed = s.lastPressed := rfl
@[simp] theorem State.loadRegs_lastReleased (a : Nat) (r : Reg) : (s.loadRegs a r).lastReleased = s.lastReleased := rfl
@[simp] theorem State.loadRegs_disp (a : Nat) (r : Reg) : (s.loadRegs a r).disp = s.disp := rfl
@[simp] theorem State.loadRegs_mem (a : Nat) (r : Reg) : (s.loadRegs a r).mem = s.mem := rfl
@[simp] theorem State.loadRegs_romSize (a : Nat) (r : Reg) : (s.loadRegs a r).romSize = s.romSize := rfl
@[simp] theorem State.loadRegs_reportOut (a : Nat) (r : Reg) : (s.loadRegs a r).reportOut = s.reportOut := rfl
@[simp] theorem State.loadRegs_started (a : Nat) (r : Reg) : (s.loadRegs a r).started = s.started := rfl
@[simp] theorem State.loadRegs_draws (a : Nat) (r : Reg) : (s.loadRegs a r).draws = s.draws := rfl

/-! ## The fetch advance. -/

@[simp] theorem State.beginStep_cfg : s.beginStep.cfg = s.cfg := rfl
@[simp] theorem State.beginStep_v : s.beginStep.v = s.v := rfl
@[simp] theorem State.beginStep_i : s.beginStep.i = s.i := rfl
@[simp] theorem State.beginStep_pc : s.beginStep.pc = s.pc + 2 := rfl
@[simp] theorem State.beginStep_dt : s.beginStep.dt = s.dt := rfl
@[simp] theorem State.beginStep_st : s.beginStep.st = s.st := rfl
@[simp] theorem State.beginStep_stack : s.beginStep.stack = s.stack := rfl
@[simp] theorem State.beginStep_keys : s.beginStep.keys = s.keys := rfl
@[simp] theorem State.beginStep_lastPressed : s.beginStep.lastPressed = s.lastPressed := rfl
@[simp] theorem State.beginStep_lastReleased : s.beginStep.lastReleased = s.lastReleased := rfl
@[simp] theorem State.beginStep_disp : s.beginStep.disp = s.disp := rfl
@[simp] theorem State.beginStep_mem : s.beginStep.mem = s.mem := rfl
@[simp] theorem State.beginStep_romSize : s.beginStep.romSize = s.romSize := rfl
@[simp] theorem State.beginStep_reportOut : s.beginStep.reportOut = .noError := rfl
@[simp] theorem State.beginStep_started : s.beginStep.started = true := rfl
@[simp] theorem State.beginStep_draws : s.beginStep.draws = s.draws := rfl

/-! ## The timer tick. -/

@[simp] theorem State.tick_cfg : s.tick.cfg = s.cfg := rfl
@[simp] theorem State.tick_v : s.tick.v = s.v := rfl
@[simp] theorem State.tick_i : s.tick.i = s.i := rfl
@[simp] theorem State.tick_pc : s.tick.pc = s.pc := rfl
@[simp] theorem State.tick_dt : s.tick.dt = if s.dt = 0 then 0 else s.dt - 1 := rfl
@[simp] theorem State.tick_st : s.tick.st = if s.st = 0 then 0 else s.st - 1 := rfl
@[simp] theorem State.tick_stack : s.tick.stack = s.stack := rfl
@[simp] theorem State.tick_keys : s.tick.keys = s.keys := rfl
@[simp] theorem State.tick_lastPressed : s.tick.lastPressed = s.lastPressed := rfl
@[simp] theorem State.tick_lastReleased : s.tick.lastReleased = s.lastReleased := rfl
@[simp] theorem State.tick_disp : s.tick.disp = s.disp := rfl
@[simp] theorem State.tick_mem : s.tick.mem = s.mem := rfl
@[simp] theorem State.tick_romSize : s.tick.romSize = s.romSize := rfl
@[simp] theorem State.tick_reportOut : s.tick.reportOut = s.reportOut := rfl
@[simp] theorem State.tick_started : s.tick.started = true := rfl
@[simp] theorem State.tick_draws : s.tick.draws = s.draws := rfl

/-! ## The skip and the condition under which a key is released for the program -/

@[simp] theorem State.skipIf_cfg (c : Bool) : (s.skipIf c).cfg = s.cfg := by cases c <;> rfl
@[simp] theorem State.skipIf_v (c : Bool) : (s.skipIf c).v = s.v := by cases c <;> rfl
@[simp] theorem State.skipIf_i (c : Bool) : (s.skipIf c).i = s.i := by cases c <;> rfl
@[simp] theorem State.skipIf_pc (c : Bool) : (s.skipIf c).pc = if c then s.pc + 2 else s.pc := by cases c <;> rfl
@[simp] theorem State.skipIf_dt (c : Bool) : (s.skipIf c).dt = s.dt := by cases c <;> rfl
@[simp] theorem State.skipIf_st (c : Bool) : (s.skipIf c).st = s.st := by cases c <;> rfl
@[simp] theorem State.skipIf_stack (c : Bool) : (s.skipIf c).stack = s.stack := by cases c <;> rfl
@[simp] theorem State.skipIf_keys (c : Bool) : (s.skipIf c).keys = s.keys := by cases c <;> rfl
@[simp] theorem State.skipIf_lastPressed (c : Bool) : (s.skipIf c).lastPressed = s.lastPressed := by cases c <;> rfl
@[simp] theorem State.skipIf_lastReleased (c : Bool) : (s.skipIf c).lastReleased = s.lastReleased := by cases c <;> rfl
@[simp] theorem State.skipIf_disp (c : Bool) : (s.skipIf c).disp = s.disp := by cases c <;> rfl
@[simp] theorem State.skipIf_mem (c : Bool) : (s.skipIf c).mem = s.mem := by cases c <;> rfl
@[simp] theorem State.skipIf_romSize (c : Bool) : (s.skipIf c).romSize = s.romSize := by cases c <;> rfl
@[simp] theorem State.skipIf_reportOut (c : Bool) : (s.skipIf c).reportOut = s.reportOut := by cases c <;> rfl
@[simp] theorem State.skipIf_started (c : Bool) : (s.skipIf c).started = s.started := by cases c <;> rfl
@[simp] theorem State.skipIf_draws (c : Bool) : (s.skipIf c).draws = s.draws := by cases c <;> rfl

@[simp] theorem State.autoRelease_cfg (k : Key) (c : Bool) : (s.autoRelease k c).cfg = s.cfg := by
  unfold State.autoRelease; split <;> rfl
@[simp] theorem State.autoRelease_v (k : Key) (c : Bool) : (s.autoRelease k c).v = s.v := by
  unfold State.autoRelease; split <;> rfl
@[simp] theorem State.autoRelease_i (k : Key) (c : Bool) : (s.autoRelease k c).i = s.i := by
  unfold State.autoRelease; split <;> rfl
@[simp] theorem State.autoRelease_pc (k : Key) (c : Bool) : (s.autoRelease k c).pc = s.pc := by
  unfold State.autoRelease; split <;> rfl
@[simp] theorem State.autoRelease_dt (k : Key) (c : Bool) : (s.autoRelease k c).dt = s.dt := by
  unfold State.autoRelease; split <;> rfl
@[simp] theorem State.autoRelease_st (k : Key) (c : Bool) : (s.autoRelease k c).st = s.st := by
  unfold State.autoRelease; split <;> rfl
@[simp] theorem State.autoRelease_stack (k : Key) (c : Bool) : (s.autoRelease k c).stack = s.stack := by
  unfold State.autoRelease; split <;> rfl
@[simp] theorem State.autoRelease_keys (k : Key) (c : Bool) : (s.autoRelease k c).keys = if s.cfg.autoRelease && c then s.keys.set k.val false else s.keys := by
  unfold State.autoRelease; split <;> rfl
@[simp] theorem State.autoRelease_lastPressed (k : Key) (c : Bool) : (s.autoRelease k c).lastPressed = s.lastPressed := by
  unfold State.autoRelease; split <;> rfl
@[simp] theorem State.autoRelease_lastReleased (k : Key) (c : Bool) : (s.autoRelease k c).lastReleased = if s.cfg.autoRelease && c then some k else s.lastReleased := by
  unfold State.autoRelease; split <;> rfl
@[simp] theorem State.autoRelease_disp (k : Key) (c : Bool) : (s.autoRelease k c).disp = s.disp := by
  unfold State.autoRelease; split <;> rfl
@[simp] theorem State.autoRelease_mem (k : Key) (c : Bool) : (s.autoRelease k c).mem = s.mem := by
  unfold State.autoRelease; split <;> rfl
@[simp] theorem State.autoRelease_romSize (k : Key) (c : Bool) : (s.autoRelease k c).romSize = s.romSize := by
  unfold State.autoRelease; split <;> rfl
@[simp] theorem State.autoRelease_reportOut (k : Key) (c : Bool) : (s.autoRelease k c).reportOut = s.reportOut := by
  unfold State.autoRelease; split <;> rfl
@[simp] theorem State.autoRelease_started (k : Key) (c : Bool) : (s.autoRelease k c).started = s.started := by
  unfold State.autoRelease; split <;> rfl
@[simp] theorem State.autoRelease_draws (k : Key) (c : Bool) : (s.autoRelease k c).draws = s.draws := by
  unfold State.autoRelease; split <;> rfl

/-! ## The boot image depends on the configuration alone -/

theorem State.boot_eq (s t : State) (h : t.cfg = s.cfg) : t.boot = s.boot := by
  unfold State.boot; rw [h]

end Sys2Proof.Machine
end

