-- ==== Sys2Proof/Laws/Ops.lean ====
section
/-! SUPPORT. One lemma per shared operation that says everything it can do to what later proofs look at: a register, a byte
of memory, pc, the call stack, the fetch. -/

namespace Sys2Proof.Machine

variable (s : State)

/-! ## Registers -/

@[simp] theorem State.reg_setReg (r q : Reg) (b : Byte) :
    (s.setReg r b).reg q = if r = q then b else s.reg q := by
  simp only [State.reg, State.setReg, Vector.getElem_set, Fin.ext_iff]

@[simp] theorem State.reg_loadRegs (base : Nat) (x q : Reg) :
    (s.loadRegs base x).reg q = if q ≤ x then s.byteAt (base + q.val) else s.reg q := by
  simp [State.reg, State.loadRegs]

/-- A load of registers changes the register file alone. (By rfl only after a case split: the unifier would first compare
the two register files.) -/
theorem State.loadRegs_frame (base : Nat) (x : Reg) : { s.loadRegs base x with v := s.v } = s := by
  cases s; rfl

/-- A register reads the same in two states with the same register file. -/
theorem State.reg_congr {s t : State} (h : t.v = s.v) (r : Reg) : t.reg r = s.reg r := by
  unfold State.reg; rw [h]

@[simp] theorem State.reg_setI (w : Word) (q : Reg) : (s.setI w).reg q = s.reg q := rfl
@[simp] theorem State.reg_setPc (w : Word) (q : Reg) : (s.setPc w).reg q = s.reg q := rfl
@[simp] theorem State.reg_setDT (b : Byte) (q : Reg) : (s.setDT b).reg q = s.reg q := rfl
@[simp] theorem State.reg_setST (b : Byte) (q : Reg) : (s.setST b).reg q = s.reg q := rfl
@[simp] theorem State.reg_consumeDraw (q : Reg) : s.consumeDraw.reg q = s.reg q := rfl
@[simp] theorem State.reg_push (w : Word) (q : Reg) : (s.push w).reg q = s.reg q := rfl
@[simp] theorem State.reg_report (e : Report) (q : Reg) : (s.report e).reg q = s.reg q := rfl
@[simp] theorem State.reg_release (k : Key) (q : Reg) : (s.release k).reg q = s.reg q := rfl
@[simp] theorem State.reg_consumeReleased (q : Reg) : s.consumeReleased.reg q = s.reg q := rfl
@[simp] theorem State.reg_consumePressed (q : Reg) : s.consumePressed.reg q = s.reg q := rfl
@[simp] theorem State.reg_setDisp (d : Display) (q : Reg) : (s.setDisp d).reg q = s.reg q := rfl
@[simp] theorem State.reg_storeBytes (a : Nat) (bytes : List Byte) (q : Reg) :
    (s.storeBytes a bytes).reg q = s.reg q := rfl
@[simp] theorem State.reg_beginStep (q : Reg) : s.beginStep.reg q = s.reg q := rfl

/-! ## Bytes of memory -/

/-- A byte reads the same in two states with the same configuration and memory. -/
theorem State.byteAt_congr {s t : State} (hc : t.cfg = s.cfg) (hm : t.mem = s.mem) (a : Nat) :
    t.byteAt a = s.byteAt a := by
  unfold State.byteAt; rw [State.boot_eq s t hc, hm]

/-- A store changes exactly the bytes stored to. -/
theorem State.byteAt_storeBytes (a c : Nat) (bytes : List Byte) :
    (s.storeBytes a bytes).byteAt c =
      if h : a ≤ c ∧ c < a + bytes.length then bytes[c - a] else s.byteAt c :=
  Memory.read_writeAll s.boot bytes s.mem a c

@[simp] theorem State.byteAt_setReg (r : Reg) (b : Byte) (a : Nat) : (s.setReg r b).byteAt a = s.byteAt a := rfl
@[simp] theorem State.byteAt_loadRegs (base : Nat) (x : Reg) (a : Nat) :
    (s.loadRegs base x).byteAt a = s.byteAt a := rfl
@[simp] theorem State.byteAt_setI (w : Word) (a : Nat) : (s.setI w).byteAt a = s.byteAt a := rfl
@[simp] theorem State.byteAt_setPc (w : Word) (a : Nat) : (s.setPc w).byteAt a = s.byteAt a := rfl
@[simp] theorem State.byteAt_setDT (b : Byte) (a : Nat) : (s.setDT b).byteAt a = s.byteAt a := rfl
@[simp] theorem State.byteAt_setST (b : Byte) (a : Nat) : (s.setST b).byteAt a = s.byteAt a := rfl
@[simp] theorem State.byteAt_consumeDraw (a : Nat) : s.consumeDraw.byteAt a = s.byteAt a := rfl
@[simp] theorem State.byteAt_setDisp (d : Display) (a : Nat) : (s.setDisp d).byteAt a = s.byteAt a := rfl
@[simp] theorem State.byteAt_beginStep (a : Nat) : s.beginStep.byteAt a = s.byteAt a := rfl
@[simp] theorem State.byteAt_report (e : Report) (a : Nat) : (s.report e).byteAt a = s.byteAt a := rfl
@[simp] theorem State.byteAt_release (k : Key) (a : Nat) : (s.release k).byteAt a = s.byteAt a := rfl
@[simp] theorem State.byteAt_consumeReleased (a : Nat) : s.consumeReleased.byteAt a = s.byteAt a := rfl
@[simp] theorem State.byteAt_consumePressed (a : Nat) : s.consumePressed.byteAt a = s.byteAt a := rfl

/-- A store within memory keeps the canonical form. -/
theorem State.wf_storeBytes (a : Nat) (bytes : List Byte) (h : Memory.wf s.boot s.mem = true)
    (ha : a + bytes.length ≤ 4096) :
    Memory.wf (s.storeBytes a bytes).boot (s.storeBytes a bytes).mem = true :=
  Memory.wf_writeAll bytes h ha

theorem inMemory_iff (base count : Nat) : inMemory base count = true ↔ count = 0 ∨ base + count ≤ 4096 := by
  simp [inMemory]

/-! ## pc, the call stack and the reports -/

theorem State.rewind_eq : s.rewind = s.setPc (s.pc - 2) := rfl

@[simp] theorem State.sp_push (w : Word) : (s.push w).sp = s.sp + 1 := rfl

/-- 2NNN does one of two things. -/
theorem State.callTo_cases (target : Word) :
    (s.sp < 16 ∧ s.callTo target = { s with stack := s.pc :: s.stack, pc := target }) ∨
      (16 ≤ s.sp ∧ s.callTo target = { s with reportOut := .stackOverflow }) := by
  unfold State.callTo
  split
  · exact .inl ⟨‹_›, rfl⟩
  · exact .inr ⟨by omega, rfl⟩

/-- 00EE does one of two things. -/
theorem State.returnFromCall_cases :
    (s.stack = [] ∧ s.returnFromCall = { s with reportOut := .stackUnderflow }) ∨
      (∃ top rest, s.stack = top :: rest ∧ s.returnFromCall = { s with stack := rest, pc := top }) := by
  unfold State.returnFromCall
  split
  · exact .inl ⟨‹_›, rfl⟩
  · exact .inr ⟨_, _, ‹_›, rfl⟩

/-- Entry `j` of the live stack, counted from the oldest. -/
theorem State.stackEntry_push (w : Word) (j : Nat) :
    (s.push w).stackEntry j = if j = s.sp then some w else s.stackEntry j := by
  simp only [State.stackEntry, State.push, State.sp, List.reverse_cons, List.getElem?_append, List.length_reverse]
  by_cases h : j < s.stack.length
  · rw [if_pos h, if_neg (by omega)]
  · rw [if_neg h]
    by_cases e : j = s.stack.length
    · simp [e]
    · rw [if_neg e, List.getElem?_eq_none (by simp; omega), List.getElem?_eq_none (by simp; omega)]

/-! ## Keys -/

@[simp] theorem State.key_press (k q : Key) : (s.press k).key q = if k = q then true else s.key q := by
  simp only [State.key, State.press, Vector.getElem_set, Fin.ext_iff]

@[simp] theorem State.key_release (k q : Key) : (s.release k).key q = if k = q then false else s.key q := by
  simp only [State.key, State.release, Vector.getElem_set, Fin.ext_iff]

/-! ## Fetch -/

/-- A fetch gives the big-endian word at pc, exactly when pc is at most 0xFFE. -/
theorem fetchWord_eq_some (w : Word) :
    fetchWord s = some w ↔
      s.pc.toNat ≤ 0xFFE ∧ w = wordOfBytes (s.byteAt s.pc.toNat) (s.byteAt (s.pc.toNat + 1)) := by
  unfold fetchWord
  split <;> simp_all [eq_comm]

theorem fetchWord_eq_none : fetchWord s = none ↔ 0xFFE < s.pc.toNat := by
  unfold fetchWord
  split <;> simp_all

end Sys2Proof.Machine
end

