-- ==== Sys2Proof/Laws/Display.lean ====
section
/-! SUPPORT. What drawing does, cell by cell: the loops of R162 toggle exactly the visible cells under set sprite bits and
collide exactly where such a cell was on. -/

namespace Sys2Proof.Machine

/-- Toggling changes exactly its cell. -/
theorem pixelAt_togglePixel (d : Display) (x y u w : Nat) (hu : u < 64) (hw : w < 32) :
    pixelAt (togglePixel d x y) u w = (pixelAt d u w ^^ decide (x = u ∧ y = w)) := by
  unfold togglePixel pixelAt
  by_cases h : x < 64 ∧ y < 32
  · rw [dif_pos h]
    simp only [hu, hw, and_self, dite_true]
    rw [Vector.getElem_set]
    by_cases hy : y = w
    · subst hy
      rw [if_pos rfl, Vector.getElem_set]
      by_cases hx : x = u
      · subst hx; simp
      · simp [hx]
    · simp [hy]
  · rw [dif_neg h]
    have : ¬ (x = u ∧ y = w) := by rintro ⟨rfl, rfl⟩; exact h ⟨hu, hw⟩
    simp [this]

/-- Two frame buffers that agree on every cell are equal. -/
theorem display_ext {d e : Display} (h : ∀ x y, x < 64 → y < 32 → pixelAt d x y = pixelAt e x y) : d = e := by
  apply Vector.ext; intro y hy
  apply Vector.ext; intro x hx
  simpa [pixelAt, hx, hy] using h x y hx hy

/-- A set bit of the row falls on column `x`, among the given sprite columns. -/
def columnHit (row : Byte) (px : Nat) (cols : List Nat) (x : Nat) : Prop :=
  ∃ c ∈ cols, row.getLsbD (7 - c) = true ∧ x = px + c

/-- One set sprite bit, cell by cell. -/
theorem pixelAt_plot (acc : Display × Bool) (x y u w : Nat) (hu : u < 64) (hw : w < 32) :
    pixelAt (plot acc x y).1 u w = (pixelAt acc.1 u w ^^ decide (x = u ∧ y = w)) := by
  unfold plot
  split
  · exact pixelAt_togglePixel acc.1 x y u w hu hw
  · have : ¬ (x = u ∧ y = w) := by omega
    simp [this]

/-- One set sprite bit collides where a visible cell is on. -/
theorem collision_plot (acc : Display × Bool) (x y : Nat) :
    (plot acc x y).2 = true ↔ acc.2 = true ∨ pixelAt acc.1 x y = true := by
  unfold plot
  split
  · simp
  · have : pixelAt acc.1 x y = false := by unfold pixelAt; rw [dif_neg (by omega)]
    simp [this]

/-- Drawing the columns of one row: exactly the visible cells under a set bit change. -/
theorem pixelAt_plotColumns (row : Byte) (px y : Nat) (cols : List Nat) (hn : cols.Nodup) (acc : Display × Bool)
    (u w : Nat) (hu : u < 64) (hw : w < 32) :
    pixelAt (plotColumns row px y cols acc).1 u w ≠ pixelAt acc.1 u w ↔ y = w ∧ columnHit row px cols u := by
  induction cols generalizing acc with
  | nil => simp [plotColumns, columnHit]
  | cons c rest ih =>
    rw [plotColumns]
    have hi := ih (List.nodup_cons.mp hn).2 (if row.getLsbD (7 - c) then plot acc (px + c) y else acc)
    have hsplit : columnHit row px (c :: rest) u ↔
        (row.getLsbD (7 - c) = true ∧ u = px + c) ∨ columnHit row px rest u := by
      simp only [columnHit, List.mem_cons]
      constructor
      · rintro ⟨d, rfl | hd, h⟩
        · exact .inl h
        · exact .inr ⟨d, hd, h⟩
      · rintro (h | ⟨d, hd, h⟩)
        · exact ⟨c, .inl rfl, h⟩
        · exact ⟨d, .inr hd, h⟩
    have hnot : u = px + c → ¬ columnHit row px rest u := by
      rintro e ⟨d, hd, _, e'⟩
      have : c = d := by omega
      exact (List.nodup_cons.mp hn).1 (this ▸ hd)
    rw [hsplit]
    by_cases hbit : row.getLsbD (7 - c) = true
    · rw [if_pos hbit] at hi ⊢
      rw [pixelAt_plot acc _ _ u w hu hw] at hi
      by_cases hxy : px + c = u ∧ y = w
      · have hr := hnot hxy.1.symm
        simp only [hxy, and_self, decide_true, Bool.xor_true, hr, and_false, iff_false, not_not] at hi
        simp only [hi, hbit, hxy, true_or, and_self, iff_true]
        cases pixelAt acc.1 u w <;> decide
      · simp only [hxy, decide_false, Bool.xor_false] at hi
        rw [hi]
        refine and_congr_right fun hy => ⟨.inr, ?_⟩
        rintro (⟨_, e⟩ | h)
        · exact absurd ⟨e.symm, hy⟩ hxy
        · exact h
    · rw [if_neg hbit] at hi ⊢
      rw [hi]
      simp [hbit]

/-- A cell that is no hit is as before. -/
theorem pixelAt_plotColumns_of_not (row : Byte) (px y : Nat) (cols : List Nat) (hn : cols.Nodup)
    (acc : Display × Bool) (u w : Nat) (hu : u < 64) (hw : w < 32) (h : ¬ (y = w ∧ columnHit row px cols u)) :
    pixelAt (plotColumns row px y cols acc).1 u w = pixelAt acc.1 u w :=
  not_not.mp (mt (pixelAt_plotColumns row px y cols hn acc u w hu hw).mp h)

/-- Drawing the columns of one row collides where a visible cell under a set bit was on. -/
theorem collision_plotColumns (row : Byte) (px y : Nat) (cols : List Nat) (hn : cols.Nodup) (acc : Display × Bool) :
    (plotColumns row px y cols acc).2 = true ↔
      acc.2 = true ∨ ∃ x, x < 64 ∧ y < 32 ∧ columnHit row px cols x ∧ pixelAt acc.1 x y = true := by
  induction cols generalizing acc with
  | nil => simp [plotColumns, columnHit]
  | cons c rest ih =>
    rw [plotColumns, ih (List.nodup_cons.mp hn).2]
    by_cases hbit : row.getLsbD (7 - c) = true
    · rw [if_pos hbit, collision_plot, or_assoc]
      refine or_congr Iff.rfl ⟨?_, ?_⟩
      · rintro (h | ⟨x, hx, hy, ⟨d, hd, hb, e⟩, hp⟩)
        · have hr : px + c < 64 ∧ y < 32 := by
            by_contra hr; unfold pixelAt at h; rw [dif_neg hr] at h; cases h
          exact ⟨_, hr.1, hr.2, ⟨c, List.mem_cons_self, hbit, rfl⟩, h⟩
        · refine ⟨x, hx, hy, ⟨d, List.mem_cons_of_mem _ hd, hb, e⟩, ?_⟩
          have hne : ¬ (px + c = x ∧ y = y) := by
            rintro ⟨e', _⟩
            have : c = d := by omega
            exact (List.nodup_cons.mp hn).1 (this ▸ hd)
          rwa [pixelAt_plot acc _ _ x y hx hy, decide_eq_false hne, Bool.xor_false] at hp
      · rintro ⟨x, hx, hy, ⟨d, hd, hb, e⟩, hp⟩
        rcases List.mem_cons.mp hd with rfl | hd'
        · exact .inl (e ▸ hp)
        · refine .inr ⟨x, hx, hy, ⟨d, hd', hb, e⟩, ?_⟩
          have hne : ¬ (px + c = x ∧ y = y) := by
            rintro ⟨e', _⟩
            have : c = d := by omega
            exact (List.nodup_cons.mp hn).1 (this ▸ hd')
          rwa [pixelAt_plot acc _ _ x y hx hy, decide_eq_false hne, Bool.xor_false]
    · rw [if_neg hbit]
      refine or_congr Iff.rfl (exists_congr fun x => and_congr Iff.rfl (and_congr Iff.rfl (and_congr ?_ Iff.rfl)))
      constructor
      · rintro ⟨d, hd, h⟩; exact ⟨d, List.mem_cons_of_mem _ hd, h⟩
      · rintro ⟨d, hd, hb, e⟩
        rcases List.mem_cons.mp hd with rfl | hd'
        · exact absurd hb hbit
        · exact ⟨d, hd', hb, e⟩

/-- The screen columns of a sprite row. -/
theorem columnHit_row (row : Byte) (px x : Nat) :
    columnHit row px [0, 1, 2, 3, 4, 5, 6, 7] x ↔ ∃ c, c < 8 ∧ row.getLsbD (7 - c) = true ∧ x = px + c := by
  unfold columnHit
  refine exists_congr fun c => and_congr_left fun _ => ?_
  simp only [List.mem_cons, List.not_mem_nil, or_false]
  omega

/-- A set bit of a sprite, given by its rows from screen row `py` downward, falls on column `x`, row `y`. -/
def rowsBit (rows : List Byte) (px py x y : Nat) : Prop :=
  ∃ r row, rows[r]? = some row ∧ y = py + r ∧ ∃ c, c < 8 ∧ row.getLsbD (7 - c) = true ∧ x = px + c

theorem rowsBit_cons (row : Byte) (rest : List Byte) (px py x y : Nat) :
    rowsBit (row :: rest) px py x y ↔
      (py = y ∧ columnHit row px [0, 1, 2, 3, 4, 5, 6, 7] x) ∨ rowsBit rest px (py + 1) x y := by
  rw [columnHit_row]
  constructor
  · rintro ⟨r, row', hr, hy, hc⟩
    cases r with
    | zero => simp only [List.getElem?_cons_zero, Option.some.injEq] at hr; subst hr; exact .inl ⟨by omega, hc⟩
    | succ r => exact .inr ⟨r, row', by simpa using hr, by omega, hc⟩
  · rintro (⟨hy, hc⟩ | ⟨r, row', hr, hy, hc⟩)
    · exact ⟨0, row, rfl, by omega, hc⟩
    · exact ⟨r + 1, row', by simpa using hr, by omega, hc⟩

theorem rowsBit_below {rows : List Byte} {px py x y : Nat} (h : rowsBit rows px py x y) : py ≤ y := by
  obtain ⟨r, _, _, hy, _⟩ := h; omega

/-- Drawing a sprite changes exactly the visible cells under its set bits. -/
theorem pixelAt_plotSprite (px : Nat) (rows : List Byte) (py : Nat) (acc : Display × Bool) (x y : Nat) (hx : x < 64)
    (hy : y < 32) :
    pixelAt (plotSprite px rows py acc).1 x y ≠ pixelAt acc.1 x y ↔ rowsBit rows px py x y := by
  induction rows generalizing py acc with
  | nil => simp [plotSprite, rowsBit]
  | cons row rest ih =>
    have hi := ih (py + 1) (plotRow row px py acc)
    have hc := pixelAt_plotColumns row px py [0, 1, 2, 3, 4, 5, 6, 7] (by decide) acc x y hx hy
    rw [plotSprite, rowsBit_cons, ← hc, ← hi, plotRow]
    by_cases e : py = y
    · have hb : ¬ rowsBit rest px (py + 1) x y := fun h => by have := rowsBit_below h; omega
      have he := not_not.mp (mt hi.mp hb)
      rw [plotRow] at he
      simp only [he, ne_eq, not_true_eq_false, or_false]
    · have he := not_not.mp (mt hc.mp (fun h => e h.1))
      simp only [he, ne_eq, not_true_eq_false, false_or]

/-- Drawing a sprite collides exactly where a visible cell under one of its set bits was on. -/
theorem collision_plotSprite (px : Nat) (rows : List Byte) (py : Nat) (acc : Display × Bool) :
    (plotSprite px rows py acc).2 = true ↔
      acc.2 = true ∨ ∃ x y, x < 64 ∧ y < 32 ∧ rowsBit rows px py x y ∧ pixelAt acc.1 x y = true := by
  induction rows generalizing py acc with
  | nil => simp [plotSprite, rowsBit]
  | cons row rest ih =>
    rw [plotSprite, ih, plotRow, collision_plotColumns row px py _ (by decide) acc, or_assoc]
    refine or_congr Iff.rfl ⟨?_, ?_⟩
    · rintro (⟨x, hx, hy, hc, hp⟩ | ⟨x, y, hx, hy, hb, hp⟩)
      · exact ⟨x, py, hx, hy, (rowsBit_cons ..).mpr (.inl ⟨rfl, hc⟩), hp⟩
      · refine ⟨x, y, hx, hy, (rowsBit_cons ..).mpr (.inr hb), ?_⟩
        have hne : py ≠ y := by have := rowsBit_below hb; omega
        rwa [pixelAt_plotColumns_of_not row px py _ (by decide) acc x y hx hy (fun h => hne h.1)] at hp
    · rintro ⟨x, y, hx, hy, hb, hp⟩
      rcases (rowsBit_cons ..).mp hb with ⟨rfl, hc⟩ | hb'
      · exact .inl ⟨x, hx, hy, hc, hp⟩
      · refine .inr ⟨x, y, hx, hy, hb', ?_⟩
        have hne : py ≠ y := by have := rowsBit_below hb'; omega
        rwa [pixelAt_plotColumns_of_not row px py _ (by decide) acc x y hx hy (fun h => hne h.1)]

end Sys2Proof.Machine
end

