-- ==== Sys2Proof/Laws/Exec.lean ====
section
/-! SUPPORT. The meanings that have a condition, said once each: when they answer, and with what. Every other meaning answers
with one expression, by rfl. -/

namespace Sys2Proof.Machine

variable {s t : State}

/-- An outcome under a range check is the next state exactly when the check holds. -/
theorem guarded_next {p : Prop} [Decidable p] {u : State} {f : Fault} :
    (if p then .next u else .fault f : Host.Outcome State Fault Refusal) = .next t ↔ p ∧ t = u := by
  split <;> simp_all [eq_comm]

/-- An outcome under a range check is the fault exactly when the check fails. -/
theorem guarded_fault {p : Prop} [Decidable p] {u : State} {f g : Fault} :
    (if p then .next u else .fault f : Host.Outcome State Fault Refusal) = .fault g ↔ ¬ p ∧ g = f := by
  split <;> simp_all [eq_comm]

theorem execLdB_next (x : Reg) : execLdB x s = .next t ↔
    s.i.toNat + 2 ≤ 4095 ∧ t = s.storeBytes (s.effectiveAddress 0) (decimalDigits (s.reg x)) := by
  rw [execLdB, guarded_next, inMemory_iff, State.effectiveAddress]
  exact and_congr_left fun _ => by omega

theorem execLdMemVx_next (x : Reg) : execLdMemVx x s = .next t ↔
    s.i.toNat + x.val ≤ 4095 ∧ t = s.storeBytes (s.effectiveAddress 0) (s.registersUpTo x) := by
  rw [execLdMemVx, guarded_next, inMemory_iff, State.effectiveAddress]
  exact and_congr_left fun _ => by omega

theorem execLdVxMem_next (x : Reg) : execLdVxMem x s = .next t ↔
    s.i.toNat + x.val ≤ 4095 ∧ t = s.loadRegs (s.effectiveAddress 0) x := by
  rw [execLdVxMem, guarded_next, inMemory_iff, State.effectiveAddress]
  exact and_congr_left fun _ => by omega

theorem execDrw_next (x y : Reg) (n : BitVec 4) : execDrw x y n s = .next t ↔
    (n.toNat = 0 ∨ s.i.toNat + n.toNat - 1 ≤ 4095) ∧
      t = (s.setDisp (s.drawn (s.reg x) (s.reg y) n.toNat).1).setReg vf
        (flagByte (s.drawn (s.reg x) (s.reg y) n.toNat).2) := by
  rw [execDrw, guarded_next, inMemory_iff, State.effectiveAddress]
  exact and_congr_left fun _ => by omega

/-- A register value is a key index or is above 15. -/
theorem keyOperand_cases (b : Byte) :
    (15 < b.toNat ∧ keyOperand b = none) ∨ (∃ k : Key, b.toNat = k.val ∧ keyOperand b = some k) := by
  unfold keyOperand
  split
  · exact .inr ⟨_, rfl, rfl⟩
  · exact .inl ⟨by omega, rfl⟩

theorem keyOperand_of_val {b : Byte} {k : Key} (h : b.toNat = k.val) : keyOperand b = some k := by
  have := k.isLt
  unfold keyOperand
  rw [dif_pos (by omega)]
  exact congrArg some (Fin.ext h)

theorem execSkp_next (x : Reg) : execSkp x s = .next t ↔
    ∃ k : Key, (s.reg x).toNat = k.val ∧ t = (s.skipIf (s.key k)).autoRelease k true := by
  unfold execSkp
  rcases keyOperand_cases (s.reg x) with ⟨h, e⟩ | ⟨k, h, e⟩ <;> rw [e]
  · exact ⟨nofun, fun ⟨q, hq, _⟩ => absurd q.isLt (by omega)⟩
  · refine ⟨fun h' => ⟨k, h, by cases h'; rfl⟩, fun ⟨q, hq, ht⟩ => ?_⟩
    obtain rfl : k = q := Fin.ext (by omega)
    rw [ht]

theorem execSknp_next (x : Reg) : execSknp x s = .next t ↔
    ∃ k : Key, (s.reg x).toNat = k.val ∧ t = (s.skipIf (!s.key k)).autoRelease k (s.key k) := by
  unfold execSknp
  rcases keyOperand_cases (s.reg x) with ⟨h, e⟩ | ⟨k, h, e⟩ <;> rw [e]
  · exact ⟨nofun, fun ⟨q, hq, _⟩ => absurd q.isLt (by omega)⟩
  · refine ⟨fun h' => ⟨k, h, by cases h'; rfl⟩, fun ⟨q, hq, ht⟩ => ?_⟩
    obtain rfl : k = q := Fin.ext (by omega)
    rw [ht]

/-- FX0A does one of four things. -/
theorem execLdVxK_cases (x : Reg) (s : State) :
    (s.cfg.autoRelease = false ∧ s.lastReleased = none ∧ execLdVxK x s = .next s.rewind) ∨
      (∃ k, s.cfg.autoRelease = false ∧ s.lastReleased = some k ∧
        execLdVxK x s = .next (s.setReg x (keyValue k)).consumeReleased) ∨
      (s.cfg.autoRelease = true ∧ s.lastPressed = none ∧ execLdVxK x s = .next s.rewind) ∨
      (∃ k, s.cfg.autoRelease = true ∧ s.lastPressed = some k ∧
        execLdVxK x s = .next ((s.setReg x (keyValue k)).release k).consumePressed) := by
  unfold execLdVxK State.awaitPress State.awaitRelease
  cases ha : s.cfg.autoRelease
  · cases hl : s.lastReleased with
    | none => exact .inl ⟨rfl, rfl, rfl⟩
    | some k => exact .inr (.inl ⟨k, rfl, rfl, rfl⟩)
  · cases hl : s.lastPressed with
    | none => exact .inr (.inr (.inl ⟨rfl, rfl, rfl⟩))
    | some k => exact .inr (.inr (.inr ⟨k, rfl, rfl, rfl⟩))

theorem keyValue_toNat (k : Key) : (keyValue k).toNat = k.val := by
  have := k.isLt
  simp only [keyValue, BitVec.toNat_ofNat]
  omega

/-! ## Write sets -/

/-- A store of `count` bytes writes exactly the bytes at I, I+1, .. below I + count. -/
theorem mem_storeWrites (count : Nat) (p : Piece) :
    p ∈ storeWrites s count ↔ ∃ a, p = .byte a ∧ s.i.toNat ≤ a ∧ a < s.i.toNat + count := by
  simp only [storeWrites, State.effectiveAddress, List.mem_map, List.mem_range]
  constructor
  · rintro ⟨k, hk, rfl⟩
    exact ⟨_, rfl, by omega, by omega⟩
  · rintro ⟨a, rfl, h1, h2⟩
    exact ⟨a - s.i.toNat, by omega, congrArg Piece.byte (by omega)⟩

@[simp] theorem mem_skipWrites (taken : Bool) (p : Piece) : p ∈ skipWrites taken ↔ taken = true ∧ p = .pc := by
  cases taken <;> simp [skipWrites]

@[simp] theorem mem_releaseWrites (k : Key) (released : Bool) (p : Piece) :
    p ∈ releaseWrites k released ↔ released = true ∧ (p = .key k ∨ p = .lastReleased) := by
  cases released <;> simp [releaseWrites]

/-! ## Operands of the stores and of the draw -/

theorem registersUpTo_length (s : State) (x : Reg) : (s.registersUpTo x).length = x.val + 1 := by
  simp only [State.registersUpTo, List.length_take, Vector.length_toList]
  omega

/-- Byte `j` of what FX55 stores is V[j]. -/
theorem registersUpTo_getElem (s : State) (x : Reg) (j : Nat) (h : j < (s.registersUpTo x).length) :
    (s.registersUpTo x)[j] = s.reg ⟨j, by rw [registersUpTo_length] at h; omega⟩ := by
  simp [State.registersUpTo, State.reg]

/-- The sprite read from memory has exactly the set bits of R161. -/
theorem rowsBit_spriteRows (s : State) (n px py x y : Nat) :
    rowsBit (s.spriteRows n) px py x y ↔ spriteBit s n px py x y := by
  have hrow : ∀ r row, (s.spriteRows n)[r]? = some row ↔ r < n ∧ row = s.byteAt (s.i.toNat + r) := by
    intro r row
    simp only [State.spriteRows, State.effectiveAddress, List.getElem?_map, Option.map_eq_some_iff,
      List.getElem?_eq_some_iff, List.length_range, List.getElem_range]
    exact ⟨fun ⟨_, ⟨h, e⟩, e'⟩ => ⟨h, by rw [← e', ← e]⟩, fun ⟨h, e⟩ => ⟨r, ⟨h, rfl⟩, e.symm⟩⟩
  constructor
  · rintro ⟨r, row, h, hy, c, hc, hb, hx⟩
    obtain ⟨hr, rfl⟩ := (hrow r row).mp h
    exact ⟨r, c, hr, hc, hx, hy, hb⟩
  · rintro ⟨r, c, hr, hc, hx, hy, hb⟩
    exact ⟨r, _, (hrow r _).mpr ⟨hr, rfl⟩, hy, c, hc, hb, hx⟩

end Sys2Proof.Machine
end

