-- ==== Sys2Proof/Laws/PerInstr.lean ====
section
/-! SUPPORT. The family `TableRow`: every instruction's word matches its row of spec/opcode_table.json (R76, R83), whose mask
and match are written out here from the table, not from the encoder. -/

namespace Sys2Proof.Laws.TableRow

/-- The `mask` and the `match` of the instruction's row. -/
def row : Instr → Word × Word
  | .cls => (0xFFFF, 0x00E0)
  | .ret => (0xFFFF, 0x00EE)
  | .sys _ => (0xF000, 0x0000)
  | .jp _ => (0xF000, 0x1000)
  | .call _ => (0xF000, 0x2000)
  | .seImm _ _ => (0xF000, 0x3000)
  | .sneImm _ _ => (0xF000, 0x4000)
  | .seReg _ _ _ => (0xF000, 0x5000)
  | .ldImm _ _ => (0xF000, 0x6000)
  | .addImm _ _ => (0xF000, 0x7000)
  | .ldReg _ _ => (0xF00F, 0x8000)
  | .or _ _ => (0xF00F, 0x8001)
  | .and _ _ => (0xF00F, 0x8002)
  | .xor _ _ => (0xF00F, 0x8003)
  | .addReg _ _ => (0xF00F, 0x8004)
  | .sub _ _ => (0xF00F, 0x8005)
  | .shr _ _ => (0xF00F, 0x8006)
  | .subn _ _ => (0xF00F, 0x8007)
  | .shl _ _ => (0xF00F, 0x800E)
  | .sneReg _ _ _ => (0xF000, 0x9000)
  | .ldI _ => (0xF000, 0xA000)
  | .jpV0 _ => (0xF000, 0xB000)
  | .rnd _ _ => (0xF000, 0xC000)
  | .drw _ _ _ => (0xF000, 0xD000)
  | .skp _ => (0xF0FF, 0xE09E)
  | .sknp _ => (0xF0FF, 0xE0A1)
  | .ldVxDt _ => (0xF0FF, 0xF007)
  | .ldVxK _ => (0xF0FF, 0xF00A)
  | .ldDtVx _ => (0xF0FF, 0xF015)
  | .ldStVx _ => (0xF0FF, 0xF018)
  | .addI _ => (0xF0FF, 0xF01E)
  | .ldF _ => (0xF0FF, 0xF029)
  | .ldB _ => (0xF0FF, 0xF033)
  | .ldMemVx _ => (0xF0FF, 0xF055)
  | .ldVxMem _ => (0xF0FF, 0xF065)
  | .undef _ => (0x0000, 0x0000)

/-- A well-formed instruction's word matches its row. -/
def Statement (i : Instr) : Prop := i.wf = true → encode i &&& (row i).1 = (row i).2

/-! ## What a mask keeps of a word -/

/-- The family nibble. -/
theorem and_F000 (w : Word) : w &&& 0xF000 = packNNN (opFamily w) 0 := by
  refine BitVec.eq_of_getLsbD_eq fun k hk => ?_
  simp only [packNNN, opFamily, BitVec.getLsbD_and, BitVec.getLsbD_append, BitVec.getLsbD_extractLsb']
  interval_cases k <;> simp

/-- The family nibble and `N`. -/
theorem and_F00F (w : Word) : w &&& 0xF00F = packXYN (opFamily w) 0 0 (opN w) := by
  refine BitVec.eq_of_getLsbD_eq fun k hk => ?_
  simp only [packXYN, opFamily, opN, BitVec.getLsbD_and, BitVec.getLsbD_append, BitVec.getLsbD_extractLsb']
  interval_cases k <;> simp

/-- The family nibble and `NN`. -/
theorem and_F0FF (w : Word) : w &&& 0xF0FF = packXNN (opFamily w) 0 (opNN w) := by
  refine BitVec.eq_of_getLsbD_eq fun k hk => ?_
  simp only [packXNN, opFamily, opNN, BitVec.getLsbD_and, BitVec.getLsbD_append, BitVec.getLsbD_extractLsb']
  interval_cases k <;> simp

/-! ## One lemma per instruction -/

theorem cls : Statement (.cls) := fun _ => by decide
theorem ret : Statement (.ret) := fun _ => by decide
theorem sys (nnn : BitVec 12) : Statement (.sys nnn) := fun _ => by
  refine (and_F000 _).trans ?_
  simp only [encode, opFamily_packNNN]; rfl
theorem jp (nnn : BitVec 12) : Statement (.jp nnn) := fun _ => by
  refine (and_F000 _).trans ?_
  simp only [encode, opFamily_packNNN]; rfl
theorem call (nnn : BitVec 12) : Statement (.call nnn) := fun _ => by
  refine (and_F000 _).trans ?_
  simp only [encode, opFamily_packNNN]; rfl
theorem seImm (x : Reg) (nn : Byte) : Statement (.seImm x nn) := fun _ => by
  refine (and_F000 _).trans ?_
  simp only [encode, opFamily_packXNN]; rfl
theorem sneImm (x : Reg) (nn : Byte) : Statement (.sneImm x nn) := fun _ => by
  refine (and_F000 _).trans ?_
  simp only [encode, opFamily_packXNN]; rfl
theorem seReg (x y : Reg) (low : BitVec 4) : Statement (.seReg x y low) := fun _ => by
  refine (and_F000 _).trans ?_
  simp only [encode, opFamily_packXYN]; rfl
theorem ldImm (x : Reg) (nn : Byte) : Statement (.ldImm x nn) := fun _ => by
  refine (and_F000 _).trans ?_
  simp only [encode, opFamily_packXNN]; rfl
theorem addImm (x : Reg) (nn : Byte) : Statement (.addImm x nn) := fun _ => by
  refine (and_F000 _).trans ?_
  simp only [encode, opFamily_packXNN]; rfl
theorem ldReg (x y : Reg) : Statement (.ldReg x y) := fun _ => by
  refine (and_F00F _).trans ?_
  simp only [encode, opFamily_packXYN, opN_packXYN]; rfl
theorem or (x y : Reg) : Statement (.or x y) := fun _ => by
  refine (and_F00F _).trans ?_
  simp only [encode, opFamily_packXYN, opN_packXYN]; rfl
theorem and (x y : Reg) : Statement (.and x y) := fun _ => by
  refine (and_F00F _).trans ?_
  simp only [encode, opFamily_packXYN, opN_packXYN]; rfl
theorem xor (x y : Reg) : Statement (.xor x y) := fun _ => by
  refine (and_F00F _).trans ?_
  simp only [encode, opFamily_packXYN, opN_packXYN]; rfl
theorem addReg (x y : Reg) : Statement (.addReg x y) := fun _ => by
  refine (and_F00F _).trans ?_
  simp only [encode, opFamily_packXYN, opN_packXYN]; rfl
theorem sub (x y : Reg) : Statement (.sub x y) := fun _ => by
  refine (and_F00F _).trans ?_
  simp only [encode, opFamily_packXYN, opN_packXYN]; rfl
theorem shr (x y : Reg) : Statement (.shr x y) := fun _ => by
  refine (and_F00F _).trans ?_
  simp only [encode, opFamily_packXYN, opN_packXYN]; rfl
theorem subn (x y : Reg) : Statement (.subn x y) := fun _ => by
  refine (and_F00F _).trans ?_
  simp only [encode, opFamily_packXYN, opN_packXYN]; rfl
theorem shl (x y : Reg) : Statement (.shl x y) := fun _ => by
  refine (and_F00F _).trans ?_
  simp only [encode, opFamily_packXYN, opN_packXYN]; rfl
theorem sneReg (x y : Reg) (low : BitVec 4) : Statement (.sneReg x y low) := fun _ => by
  refine (and_F000 _).trans ?_
  simp only [encode, opFamily_packXYN]; rfl
theorem ldI (nnn : BitVec 12) : Statement (.ldI nnn) := fun _ => by
  refine (and_F000 _).trans ?_
  simp only [encode, opFamily_packNNN]; rfl
theorem jpV0 (nnn : BitVec 12) : Statement (.jpV0 nnn) := fun _ => by
  refine (and_F000 _).trans ?_
  simp only [encode, opFamily_packNNN]; rfl
theorem rnd (x : Reg) (nn : Byte) : Statement (.rnd x nn) := fun _ => by
  refine (and_F000 _).trans ?_
  simp only [encode, opFamily_packXNN]; rfl
theorem drw (x y : Reg) (n : BitVec 4) : Statement (.drw x y n) := fun _ => by
  refine (and_F000 _).trans ?_
  simp only [encode, opFamily_packXYN]; rfl
theorem skp (x : Reg) : Statement (.skp x) := fun _ => by
  refine (and_F0FF _).trans ?_
  simp only [encode, opFamily_packXNN, opNN_packXNN]; rfl
theorem sknp (x : Reg) : Statement (.sknp x) := fun _ => by
  refine (and_F0FF _).trans ?_
  simp only [encode, opFamily_packXNN, opNN_packXNN]; rfl
theorem ldVxDt (x : Reg) : Statement (.ldVxDt x) := fun _ => by
  refine (and_F0FF _).trans ?_
  simp only [encode, opFamily_packXNN, opNN_packXNN]; rfl
theorem ldVxK (x : Reg) : Statement (.ldVxK x) := fun _ => by
  refine (and_F0FF _).trans ?_
  simp only [encode, opFamily_packXNN, opNN_packXNN]; rfl
theorem ldDtVx (x : Reg) : Statement (.ldDtVx x) := fun _ => by
  refine (and_F0FF _).trans ?_
  simp only [encode, opFamily_packXNN, opNN_packXNN]; rfl
theorem ldStVx (x : Reg) : Statement (.ldStVx x) := fun _ => by
  refine (and_F0FF _).trans ?_
  simp only [encode, opFamily_packXNN, opNN_packXNN]; rfl
theorem addI (x : Reg) : Statement (.addI x) := fun _ => by
  refine (and_F0FF _).trans ?_
  simp only [encode, opFamily_packXNN, opNN_packXNN]; rfl
theorem ldF (x : Reg) : Statement (.ldF x) := fun _ => by
  refine (and_F0FF _).trans ?_
  simp only [encode, opFamily_packXNN, opNN_packXNN]; rfl
theorem ldB (x : Reg) : Statement (.ldB x) := fun _ => by
  refine (and_F0FF _).trans ?_
  simp only [encode, opFamily_packXNN, opNN_packXNN]; rfl
theorem ldMemVx (x : Reg) : Statement (.ldMemVx x) := fun _ => by
  refine (and_F0FF _).trans ?_
  simp only [encode, opFamily_packXNN, opNN_packXNN]; rfl
theorem ldVxMem (x : Reg) : Statement (.ldVxMem x) := fun _ => by
  refine (and_F0FF _).trans ?_
  simp only [encode, opFamily_packXNN, opNN_packXNN]; rfl
theorem undef (w : Word) : Statement (.undef w) := fun _ => BitVec.and_zero

end Sys2Proof.Laws.TableRow
end

