-- ==== Sys2Proof/Laws/Step.lean ====
section
/-! SUPPORT. What a step can do, said once: it faults on the fetch, or it is its instruction's meaning on the advanced
state. -/

namespace Sys2Proof.Machine

/-- In range, a step is `exec` of the decoded word on the advanced state. -/
theorem step_eq_exec (s : State) (h : s.pc.toNat ≤ 0xFFE) :
    step s = exec (decodeWord (wordOfBytes (s.byteAt s.pc.toNat) (s.byteAt (s.pc.toNat + 1)))) s.beginStep := by
  unfold step
  rw [(fetchWord_eq_some s _).mpr ⟨h, rfl⟩]

/-- Out of range, a step faults. -/
theorem step_eq_fault (s : State) (h : 0xFFE < s.pc.toNat) : step s = .fault .addressOutOfRange := by
  unfold step
  rw [(fetchWord_eq_none s).mpr h]

/-- Inversion: a step that answers a next state fetched in range and ran one instruction. -/
theorem step_next {s t : State} (h : step s = .next t) :
    s.pc.toNat ≤ 0xFFE ∧
      exec (decodeWord (wordOfBytes (s.byteAt s.pc.toNat) (s.byteAt (s.pc.toNat + 1)))) s.beginStep = .next t := by
  by_cases hp : s.pc.toNat ≤ 0xFFE
  · exact ⟨hp, (step_eq_exec s hp).symm.trans h⟩
  · rw [step_eq_fault s (by omega)] at h; cases h

/-- The advance of an in-range pc does not wrap. -/
theorem beginStep_pc_toNat (s : State) (h : s.pc.toNat ≤ 0xFFE) : s.beginStep.pc.toNat = s.pc.toNat + 2 := by
  rw [State.beginStep_pc, BitVec.toNat_add, show (2 : Word).toNat = 2 from rfl]
  omega

end Sys2Proof.Machine
end

