-- ==== Sys2Proof/Tests/Slice0.lean ====
section
/-! SUPPORT. Tests: well-formedness refusals, one word for every constructor written out from the encodings of R76, at most two
steps per instruction from spec/95_test_vectors.md (the vector's number stands before each), and for every obligation with
hypotheses a witness that meets all of them. -/

namespace Sys2Proof.Tests

open Sys2Proof.Machine

/-! ## Helpers -/

/-- Auto-release mode, otherwise the reset state. -/
def autoMode : State := State.resetWith { Config.atReset with autoRelease := true }

/-- The word `w` at pc. -/
def at' (w : Nat) (s : State) : State := s.withFetchWord 16 w

/-- The word `w` at pc runs to a next state that passes `p`. -/
def after (w : Nat) (s : State) (p : State → Bool) : Bool :=
  match step (at' w s) with
  | .next t => p t
  | .fault _ => false
  | .refused _ => false

/-- The word `w` at pc faults with `f`. -/
def faults (w : Nat) (s : State) (f : Fault) : Bool :=
  match step (at' w s) with
  | .next _ => false
  | .fault g => g == f
  | .refused _ => false

/-- A transaction has a next state that passes `p`. -/
def afterHost (e : Transaction) (s : State) (p : State → Bool) : Bool :=
  match perform e s with
  | .next t => p t
  | .fault _ => false
  | .refused _ => false

/-- A transaction faults with `f`. -/
def faultsHost (e : Transaction) (s : State) (f : Fault) : Bool :=
  match perform e s with
  | .next _ => false
  | .fault g => g == f
  | .refused _ => false

/-- pc elsewhere. -/
def pcAt (a : Word) : State := State.reset.setPc a

/-- `n` live stack entries of 0x0300. -/
def deep (n : Nat) : State := { State.reset with stack := List.replicate n 0x0300 }

/-- One key down. -/
def keyDown (s : State) (k : Key) : State := { s with keys := s.keys.set k.val true }

/-- The cells of the list on. -/
def cells (s : State) (l : List (Nat × Nat)) : State := { s with disp := l.foldl (fun d c => togglePixel d c.1 c.2) blankDisplay }

/-- Exactly the cells of the list are on, among those with x < 8 or x > 59 in rows 0, 1, 2, 31. -/
def shows (t : State) (l : List (Nat × Nat)) : Bool :=
  [0, 1, 2, 31].all fun y => [0, 1, 2, 3, 4, 5, 6, 7, 60, 61, 62, 63].all fun x => t.pixel x y == l.contains (x, y)

/-! ## Well-formedness refuses ill-formed terms -/

theorem test_wf_sys_is_not_cls : (Instr.sys 0x0E0).wf = false := by decide
theorem test_wf_sys_is_not_ret : (Instr.sys 0x0EE).wf = false := by decide
theorem test_wf_undef_outside_families : (Instr.undef 0x1234).wf = false ∧ (Instr.undef 0x0000).wf = false := by decide
theorem test_wf_undef_defined_in_8 : (Instr.undef 0x8127).wf = false ∧ (Instr.undef 0x812E).wf = false := by decide
theorem test_wf_undef_defined_in_E : (Instr.undef 0xE19E).wf = false ∧ (Instr.undef 0xE1A1).wf = false := by decide
theorem test_wf_undef_defined_in_F : (Instr.undef 0xF107).wf = false ∧ (Instr.undef 0xF165).wf = false := by decide
theorem test_wf_accepts : (Instr.sys 0x000).wf = true ∧ (Instr.undef 0x812F).wf = true ∧ (Instr.undef 0xE19F).wf = true ∧
    (Instr.undef 0xF108).wf = true := by decide

/-! ## Decoding: words written out bit by bit from the layouts of R72 and the rows of R76 -/

theorem test_decode_family_0 : decodeWord 0b0000000011100000 = .cls ∧ decodeWord 0b0000000011101110 = .ret ∧
    decodeWord 0b0000001000110100 = .sys 0x234 ∧ decodeWord 0b0000000000000000 = .sys 0x000 := by decide
theorem test_decode_jumps : decodeWord 0b0001101010111100 = .jp 0xABC ∧ decodeWord 0b0010001000001110 = .call 0x20E ∧
    decodeWord 0b1011001100000000 = .jpV0 0x300 := by decide
theorem test_decode_skips : decodeWord 0b0011001100101010 = .seImm 3 0x2A ∧ decodeWord 0b0100001100101010 = .sneImm 3 0x2A ∧
    decodeWord 0b0101101010110000 = .seReg 0xA 0xB 0 ∧ decodeWord 0b1001101010111111 = .sneReg 0xA 0xB 0xF := by decide
theorem test_decode_constants : decodeWord 0b0110101000000101 = .ldImm 0xA 5 ∧
    decodeWord 0b0111000100000010 = .addImm 1 2 ∧ decodeWord 0b1100001100001111 = .rnd 3 0x0F := by decide
theorem test_decode_family_8_logic : decodeWord 0b1000101011110000 = .ldReg 0xA 0xF ∧
    decodeWord 0b1000000100100001 = .or 1 2 ∧ decodeWord 0b1000000100100010 = .and 1 2 ∧
    decodeWord 0b1000000100100011 = .xor 1 2 := by decide
theorem test_decode_family_8_arithmetic : decodeWord 0b1000000000010100 = .addReg 0 1 ∧
    decodeWord 0b1000000000010101 = .sub 0 1 ∧ decodeWord 0b1000000000010110 = .shr 0 1 ∧
    decodeWord 0b1000000000010111 = .subn 0 1 ∧ decodeWord 0b1000101010111110 = .shl 0xA 0xB := by decide
theorem test_decode_index_and_draw : decodeWord 0b1010001100000000 = .ldI 0x300 ∧
    decodeWord 0b1101000000010011 = .drw 0 1 3 ∧ decodeWord 0b1101000000000000 = .drw 0 0 0 := by decide
theorem test_decode_family_E : decodeWord 0b1110001110011110 = .skp 3 ∧ decodeWord 0b1110001110100001 = .sknp 3 := by decide
theorem test_decode_family_F_timers_keys : decodeWord 0b1111010000000111 = .ldVxDt 4 ∧
    decodeWord 0b1111001100001010 = .ldVxK 3 ∧ decodeWord 0b1111101000010101 = .ldDtVx 0xA ∧
    decodeWord 0b1111001000011000 = .ldStVx 2 := by decide
theorem test_decode_family_F_memory : decodeWord 0b1111001100011110 = .addI 3 ∧
    decodeWord 0b1111001000101001 = .ldF 2 ∧ decodeWord 0b1111000000110011 = .ldB 0 ∧
    decodeWord 0b1111000101010101 = .ldMemVx 1 ∧ decodeWord 0b1111001001100101 = .ldVxMem 2 := by decide
/-- The UNDEF words of the spot checks of 2.7. -/
theorem test_decode_undef : decodeWord 0x8AB8 = .undef 0x8AB8 ∧ decodeWord 0x8ABF = .undef 0x8ABF ∧
    decodeWord 0xEA9F = .undef 0xEA9F ∧ decodeWord 0xEA00 = .undef 0xEA00 ∧ decodeWord 0xFA75 = .undef 0xFA75 ∧
    decodeWord 0xFA85 = .undef 0xFA85 ∧ decodeWord 0xFA30 = .undef 0xFA30 ∧ decodeWord 0xFA00 = .undef 0xFA00 := by decide
/-- The SYS words and the reserved skips of the spot checks of 2.7. -/
theorem test_decode_sys_and_reserved_skips : decodeWord 0x00E1 = .sys 0x0E1 ∧ decodeWord 0x00FE = .sys 0x0FE ∧
    decodeWord 0x0FFF = .sys 0xFFF ∧ decodeWord 0x5AB7 = .seReg 0xA 0xB 7 ∧ decodeWord 0x9AB0 = .sneReg 0xA 0xB 0 := by decide
/-- R52: the byte at the lower address holds bits 15..8. -/
theorem test_decode_bytes_big_endian : decode [0x12, 0x34, 0x56] = .ok (.jp 0x234, [0x56]) := by decide
theorem test_decode_truncated : decode [0x12] = .error .truncated ∧ decode [] = .error .truncated := by decide
theorem test_encode_words : encode (.drw 0 1 3) = 0xD013 ∧ encode (.ldVxMem 2) = 0xF265 ∧ encode (.shl 0xA 0xB) = 0x8ABE ∧
    encode (.call 0x20E) = 0x220E ∧ encodeBytes (.jp 0x234) = [0x12, 0x34] := by decide
theorem test_table_words : decodeTableWord 16 0xF055 = some (.ldMemVx 0) ∧ decodeTableWord 32 0xF055 = none := by decide

/-! ## Control flow (2.1) -/

/-- CF1. -/
theorem test_sys : after 0x0000 State.reset (fun t => t.pc == 0x202 && t.reportOut == .noError) = true := by decide
/-- CF4. -/
theorem test_ret_underflow : after 0x00EE State.reset (fun t => t.pc == 0x202 && t.sp == 0 && t.reportOut == .stackUnderflow)
    = true := by decide
/-- CF5. -/
theorem test_ret : after 0x00EE { pcAt 0x310 with stack := [0x206] }
    (fun t => t.pc == 0x206 && t.sp == 0 && t.reportOut == .noError) = true := by decide
/-- CF6. -/
theorem test_jp : after 0x1ABC State.reset (fun t => t.pc == 0xABC) = true := by decide
/-- CF10. -/
theorem test_call_sixteenth : after 0x2ABC (deep 15)
    (fun t => t.pc == 0xABC && t.sp == 16 && t.stackEntry 15 == some 0x202 && t.stackEntry 0 == some 0x300) = true := by decide
/-- CF11. -/
theorem test_call_overflow : after 0x2200 (deep 16)
    (fun t => t.pc == 0x202 && t.sp == 16 && t.reportOut == .stackOverflow) = true := by decide
/-- CF14: VF is tested as a plain register. -/
theorem test_se_imm_skips : after 0x3F01 (State.reset.setReg 0xF 1) (fun t => t.pc == 0x204) = true := by decide
/-- CF13. -/
theorem test_se_imm_falls_through : after 0x332A (State.reset.setReg 3 0x2B) (fun t => t.pc == 0x202) = true := by decide
/-- CF16. -/
theorem test_sne_imm_skips : after 0x432A State.reset (fun t => t.pc == 0x204) = true := by decide
/-- CF15. -/
theorem test_sne_imm_falls_through : after 0x432A (State.reset.setReg 3 0x2A) (fun t => t.pc == 0x202) = true := by decide
/-- CF20: the low nibble is ignored. -/
theorem test_se_reg_skips : after 0x5121 ((State.reset.setReg 1 7).setReg 2 7) (fun t => t.pc == 0x204) = true := by decide
/-- CF18. -/
theorem test_se_reg_falls_through : after 0x5120 ((State.reset.setReg 1 7).setReg 2 8) (fun t => t.pc == 0x202) = true := by
  decide
/-- CF23: the low nibble is ignored. -/
theorem test_sne_reg_skips : after 0x9127 ((State.reset.setReg 1 7).setReg 2 8) (fun t => t.pc == 0x204) = true := by decide
/-- CF22. -/
theorem test_sne_reg_falls_through : after 0x9120 ((State.reset.setReg 1 7).setReg 2 7) (fun t => t.pc == 0x202) = true := by
  decide
/-- CF25: the sum is not reduced to 12 bits. -/
theorem test_jp_v0 : after 0xBFFF (State.reset.setReg 0 0xFF) (fun t => t.pc == 0x10FE) = true := by decide

/-! ## Arithmetic, logic, shifts, random (2.2) -/

/-- A2. -/
theorem test_ld_imm : after 0x6FFF State.reset (fun t => t.reg 0xF == 0xFF) = true := by decide
/-- A3. -/
theorem test_add_imm_no_flag : after 0x7102 (State.reset.setReg 1 0xFF) (fun t => t.reg 1 == 1 && t.reg 0xF == 0) = true := by
  decide
/-- A5. -/
theorem test_ld_reg : after 0x8AF0 (State.reset.setReg 0xF 1) (fun t => t.reg 0xA == 1) = true := by decide
/-- A6. -/
theorem test_or : after 0x8121 (((State.reset.setReg 1 0xF0).setReg 2 0x0F).setReg 0xF 1)
    (fun t => t.reg 1 == 0xFF && t.reg 0xF == 1) = true := by decide
/-- A7. -/
theorem test_and : after 0x8122 (((State.reset.setReg 1 0xF0).setReg 2 0x3C).setReg 0xF 1)
    (fun t => t.reg 1 == 0x30 && t.reg 0xF == 1) = true := by decide
/-- A8. -/
theorem test_xor : after 0x8123 (((State.reset.setReg 1 0xF0).setReg 2 0x3C).setReg 0xF 1)
    (fun t => t.reg 1 == 0xCC && t.reg 0xF == 1) = true := by decide
/-- S3. -/
theorem test_add_reg_carry : after 0x8014 ((State.reset.setReg 0 0xFF).setReg 1 1)
    (fun t => t.reg 0 == 0 && t.reg 0xF == 1) = true := by decide
/-- A14: with X = F the flag stands. -/
theorem test_add_reg_into_vf : after 0x8F14 ((State.reset.setReg 0xF 1).setReg 1 1) (fun t => t.reg 0xF == 0) = true := by
  decide
/-- S4. -/
theorem test_sub_borrow : after 0x8015 ((State.reset.setReg 0 1).setReg 1 2)
    (fun t => t.reg 0 == 0xFF && t.reg 0xF == 0) = true := by decide
/-- A17: equal operands give 0. -/
theorem test_sub_equal : after 0x8015 (((State.reset.setReg 0 5).setReg 1 5).setReg 0xF 1)
    (fun t => t.reg 0 == 0 && t.reg 0xF == 0) = true := by decide
/-- S5: the source is VY. -/
theorem test_shr : after 0x8016 ((State.reset.setReg 0 0x55).setReg 1 0x81)
    (fun t => t.reg 0 == 0x40 && t.reg 1 == 0x81 && t.reg 0xF == 1) = true := by decide
/-- A25: with Y = F the source is the old VF. -/
theorem test_shr_from_vf : after 0x80F6 (State.reset.setReg 0xF 3) (fun t => t.reg 0 == 1 && t.reg 0xF == 1) = true := by decide
/-- A26. -/
theorem test_subn : after 0x8017 ((State.reset.setReg 0 2).setReg 1 5) (fun t => t.reg 0 == 3 && t.reg 0xF == 1) = true := by
  decide
/-- A27. -/
theorem test_subn_borrow : after 0x8017 ((State.reset.setReg 0 5).setReg 1 2)
    (fun t => t.reg 0 == 0xFD && t.reg 0xF == 0) = true := by decide
/-- A29. -/
theorem test_shl : after 0x801E ((State.reset.setReg 0 0x55).setReg 1 0x81)
    (fun t => t.reg 0 == 2 && t.reg 0xF == 1) = true := by decide
/-- A31: with X = F the shifted value stands. -/
theorem test_shl_into_vf : after 0x8F1E (State.reset.setReg 1 0xC0) (fun t => t.reg 0xF == 0x80) = true := by decide
/-- A33, on the draw of the vector: a step's own draw is a free value. -/
theorem test_rnd_masks : (loadMasked 0xB7 3 0x0F State.reset).reg 3 = 0x07 := by decide
/-- A step of CXNN takes the next draw and moves on. -/
theorem test_rnd_draws : after 0xC30F State.reset (fun t => t.draws == 1 && t.pc == 0x202) = true := by decide
/-- A36. -/
theorem test_undef_8 : after 0x8128 (((State.reset.setReg 1 1).setReg 2 2).setReg 0xF 3)
    (fun t => t.reg 1 == 1 && t.reg 0xF == 3 && t.pc == 0x202) = true := by decide

/-! ## Index and memory (2.3) -/

/-- M2. -/
theorem test_ld_i : after 0xAFFF State.reset (fun t => t.i == 0xFFF) = true := by decide
/-- M5. -/
theorem test_add_i_wraps : after 0xF31E (((State.reset.setI 0xFFFF).setReg 3 2).setReg 0xF 7)
    (fun t => t.i == 1 && t.reg 0xF == 7) = true := by decide
/-- M8: the whole of VX, not its low nibble. -/
theorem test_ld_f : after 0xF229 (State.reset.setReg 2 0xFF) (fun t => t.i == 0x54B) = true := by decide
/-- M12: the last base in range. -/
theorem test_ld_b : after 0xF033 ((State.reset.setReg 0 0x63).setI 0xFFD)
    (fun t => t.byteAt 0xFFD == 0 && t.byteAt 0xFFE == 9 && t.byteAt 0xFFF == 9) = true := by decide
/-- M13. -/
theorem test_ld_b_faults : faults 0xF033 ((State.reset.setReg 0 0x63).setI 0xFFE) .addressOutOfRange = true := by decide
/-- S11. -/
theorem test_ld_mem_vx : after 0xF255 ((((State.reset.setReg 0 0x11).setReg 2 0x33).setReg 3 0x44).setI 0x300)
    (fun t => t.byteAt 0x300 == 0x11 && t.byteAt 0x302 == 0x33 && t.byteAt 0x303 == 0 && t.i == 0x300) = true := by decide
/-- M15. -/
theorem test_ld_mem_vx_faults : faults 0xF155 (State.reset.setI 0xFFF) .addressOutOfRange = true := by decide
/-- M16. -/
theorem test_ld_vx_mem : after 0xFF65 ((State.reset.storeBytes 0xFF0
      [1, 2, 3, 4, 5, 6, 7, 8, 9, 10, 11, 12, 13, 14, 15, 16]).setI 0xFF0)
    (fun t => t.reg 0 == 1 && t.reg 0xE == 15 && t.reg 0xF == 16 && t.i == 0xFF0) = true := by decide
/-- M17. -/
theorem test_ld_vx_mem_faults : faults 0xFF65 (State.reset.setI 0xFF1) .addressOutOfRange = true := by decide

/-! ## Display (2.4) -/

/-- DP1. -/
theorem test_cls : after 0x00E0 (cells (State.reset.setReg 0xF 2) [(0, 0), (63, 31)])
    (fun t => shows t [] && t.reg 0xF == 2) = true := by decide
/-- DP2: the origin wraps, the body is clipped. -/
theorem test_drw_clips : after 0xD011 (((State.reset.storeBytes 0x300 [0xFF]).setI 0x300).setReg 0 0x7C |>.setReg 1 0x20)
    (fun t => shows t [(60, 0), (61, 0), (62, 0), (63, 0)] && t.reg 0xF == 0) = true := by decide
/-- DP7. -/
theorem test_drw_collides : after 0xD011 (cells ((State.reset.storeBytes 0x300 [0xC0]).setI 0x300) [(1, 0), (2, 0)])
    (fun t => shows t [(0, 0), (2, 0)] && t.reg 0xF == 1) = true := by decide

/-! ## Keypad (2.5) -/

/-- K6v. -/
theorem test_skp : after 0xE39E (keyDown (State.reset.setReg 3 7) 7) (fun t => t.pc == 0x204 && t.key 7) = true := by decide
/-- K9v: the release is unconditional. -/
theorem test_skp_auto : after 0xE39E (autoMode.setReg 3 7) (fun t => t.pc == 0x202 && t.lastReleased == some 7) = true := by
  decide
/-- K12v. -/
theorem test_sknp_auto : after 0xE3A1 (keyDown (autoMode.setReg 3 7) 7)
    (fun t => t.pc == 0x202 && !t.key 7 && t.lastReleased == some 7) = true := by decide
/-- K15v. -/
theorem test_sknp_faults : faults 0xE3A1 (State.reset.setReg 3 0xFF) .keyIndexOutOfRange = true := by decide
/-- K19v. -/
theorem test_ld_vx_k : after 0xF30A (keyDown { State.reset with lastPressed := some 4, lastReleased := some 9 } 4)
    (fun t => t.reg 3 == 9 && t.lastReleased == none && t.lastPressed == some 4 && t.key 4 && t.pc == 0x202) = true := by decide
/-- K20v. -/
theorem test_ld_vx_k_auto : after 0xF30A (keyDown { autoMode with lastPressed := some 4 } 4)
    (fun t => t.reg 3 == 4 && !t.key 4 && t.lastPressed == none && t.lastReleased == some 4 && t.pc == 0x202) = true := by decide
/-- K16v. -/
theorem test_undef_E : after 0xE1FF (State.reset.setReg 1 0xFF) (fun t => t.pc == 0x202) = true := by decide

/-! ## Timers (2.6) -/

/-- T1. -/
theorem test_ld_vx_dt : after 0xF407 (State.reset.setDT 3) (fun t => t.reg 4 == 3 && t.dt == 3) = true := by decide
/-- T2. -/
theorem test_ld_dt_vx : after 0xFA15 (State.reset.setReg 0xA 5) (fun t => t.dt == 5 && t.st == 0) = true := by decide
/-- T3. -/
theorem test_ld_st_vx : after 0xF218 (State.reset.setReg 2 0x10) (fun t => t.st == 0x10 && t.dt == 0) = true := by decide

/-! ## Fetch (2.7) -/

/-- E3v: an odd pc. -/
theorem test_fetch_odd_pc : after 0x6B07 (pcAt 0x201) (fun t => t.reg 0xB == 7 && t.pc == 0x203) = true := by decide
/-- E4v: the last fetchable address. -/
theorem test_fetch_last : after 0x1200 (pcAt 0xFFE) (fun t => t.pc == 0x200) = true := by decide
/-- E5v. -/
theorem test_fetch_faults : faults 0x0000 (pcAt 0xFFF) .addressOutOfRange = true := by decide

/-! ## Host transactions (2.5, 2.6, 2.8) -/

/-- K2v. -/
theorem test_key_press : afterHost (.keyPress 3) (keyDown State.reset 7)
    (fun t => t.key 3 && t.key 7 && t.lastPressed == some 3) = true := by decide
/-- K5v. -/
theorem test_key_release : afterHost (.keyRelease 2) State.reset (fun t => !t.key 2 && t.lastReleased == some 2) = true := by
  decide
/-- T5. -/
theorem test_tick : afterHost .tick (State.reset.setST 1) (fun t => t.dt == 0 && t.st == 0) = true := by decide
/-- DP2's display read: flat indices 60 to 63. -/
theorem test_display_read : ((cells State.reset [(60, 0), (63, 0), (0, 1)]).displayRead.take 65).zipIdx.filterMap
    (fun c => if c.1 then some c.2 else none) = [60, 63, 64] := by decide
/-- B1, at the ends of the font region; the glyph bytes are those of G3. -/
theorem test_reset_memory : State.reset.byteAt 0x04F = 0 ∧ State.reset.byteAt 0x050 = 0xF0 ∧ State.reset.byteAt 0x09B = 0xF0 ∧
    State.reset.byteAt 0x09F = 0x80 ∧ State.reset.byteAt 0x0A0 = 0 := by decide
/-- B2. -/
theorem test_reset_bad_configuration : faultsHost (.reset { Config.atReset with romStart := 0xEA1 }) State.reset
    .badConfiguration = true := by decide
/-- B3, failing half. -/
theorem test_load_rom_too_long :
    (loadRom [0x00] (State.resetWith { Config.atReset with romStart := 0xEA0 })) =
      .next (State.resetWith { Config.atReset with romStart := 0xEA0 }) := rfl
/-- B4, its load and first step. -/
theorem test_load_rom : afterHost (.loadRom [0x60, 0x2A, 0x12, 0x02]) State.reset
    (fun t => t.romSize == 4 && (match step t with | .next u => u.reg 0 == 0x2A | .fault _ => false | .refused _ => false))
    = true := by decide
/-- S1, one byte short. -/
theorem test_load_font_length : (State.reset.loadFontBytes (List.replicate 79 1)).1 = .failed := by decide
theorem test_reset_memory_canonical : Memory.wf State.reset.boot State.reset.mem = true := by decide

/-! ## Witnesses: states and operands that meet the hypotheses of the obligations -/

theorem witness_DecodeInvertsEncode : Instr.cls.wf = true ∧ (Instr.sys 0x0E1).wf = true ∧ (Instr.drw 15 15 15).wf = true ∧
    (Instr.undef 0xFFFF).wf = true := by decide

theorem witness_StepRunsDecodedInstruction :
    ((at' 0x1200 (pcAt 0xFFE)).pc.toNat ≤ 0xFFE ∧
      decode [(at' 0x1200 (pcAt 0xFFE)).byteAt 0xFFE, (at' 0x1200 (pcAt 0xFFE)).byteAt 0xFFF] = .ok (.jp 0x200, [])) ∧
    (State.reset.pc.toNat ≤ 0xFFE ∧ decode [State.reset.byteAt 0x200, State.reset.byteAt 0x201] = .ok (.sys 0, [])) := by
  decide

/-- Each of the list's conditions just met, and just not met. -/
theorem witness_InstructionsEndAsListed :
    unspecified (.drw 0 1 1) (State.reset.setI 0x1000) = some .addressOutOfRange ∧
    unspecified (.ldB 0) (State.reset.setI 0xFFE) = some .addressOutOfRange ∧
    unspecified (.ldMemVx 1) (State.reset.setI 0xFFF) = some .addressOutOfRange ∧
    unspecified (.ldVxMem 1) (State.reset.setI 0xFFF) = some .addressOutOfRange ∧
    unspecified (.skp 3) (State.reset.setReg 3 16) = some .keyIndexOutOfRange ∧
    unspecified (.sknp 3) (State.reset.setReg 3 16) = some .keyIndexOutOfRange ∧
    unspecified (.drw 0 1 1) (State.reset.setI 0xFFF) = none ∧ unspecified (.drw 0 1 0) (State.reset.setI 0xFFFF) = none ∧
    unspecified (.ldB 0) (State.reset.setI 0xFFD) = none ∧ unspecified (.ldMemVx 1) (State.reset.setI 0xFFE) = none ∧
    unspecified (.ldVxMem 15) (State.reset.setI 0xFF0) = none ∧ unspecified (.skp 3) (State.reset.setReg 3 15) = none ∧
    unspecified (.sknp 3) (State.reset.setReg 3 15) = none ∧ unspecified .cls State.reset = none := by decide

theorem witness_StepsEndAsListed :
    0xFFE < (pcAt 0xFFF).pc.toNat ∧
    (((at' 0xF033 (State.reset.setI 0xFFE)).pc.toNat ≤ 0xFFE ∧
      unspecified (decodeWord (at' 0xF033 (State.reset.setI 0xFFE)).nextWord) (at' 0xF033 (State.reset.setI 0xFFE)) =
        some .addressOutOfRange)) ∧
    ((at' 0x1200 (pcAt 0xFFE)).pc.toNat ≤ 0xFFE ∧
      unspecified (decodeWord (at' 0x1200 (pcAt 0xFFE)).nextWord) (at' 0x1200 (pcAt 0xFFE)) = none) := by decide

theorem witness_SilentWordsOnlyAdvance :
    ((pcAt 0xFFE).pc.toNat ≤ 0xFFE ∧ (at' 0x8128 (pcAt 0xFFE)).pc.toNat ≤ 0xFFE) ∧
    isUndefWord (at' 0x8128 (pcAt 0xFFE)).nextWord = true ∧
    ((pcAt 0xFFE).nextWord.toNat < 0x1000 ∧ (pcAt 0xFFE).nextWord ≠ 0x00E0 ∧ (pcAt 0xFFE).nextWord ≠ 0x00EE) := by decide

/-- A CALL at a full stack, a RET at an empty one. -/
theorem witness_ReportsAreTheStackErrors :
    (∃ t, (at' 0x2200 (deep 16)).sp ≤ 16 ∧ step (at' 0x2200 (deep 16)) = .next t ∧ t.reportOut = .stackOverflow) ∧
    (∃ t, (at' 0x00EE State.reset).sp ≤ 16 ∧ step (at' 0x00EE State.reset) = .next t ∧ t.reportOut = .stackUnderflow) :=
  ⟨⟨_, by decide, rfl, rfl⟩, ⟨_, by decide, rfl, rfl⟩⟩

theorem witness_CallPushesReturnAddress : (deep 0).sp < 16 ∧ (deep 15).sp < 16 ∧ (deep 16).sp = 16 := by decide

theorem witness_ReturnPopsNewestEntry : 0 < (deep 1).sp ∧ 0 < (deep 16).sp ∧ (deep 0).sp = 0 := by decide

theorem witness_CallsNestToSixteen :
    (deep 0).sp + (List.replicate 16 (0x200 : BitVec 12)).length ≤ 16 ∧ 16 ≤ (deep 16).sp := by decide

theorem witness_JumpToSelfRepeats :
    ((at' 0x1200 State.reset).pc.toNat ≤ 0xFFE ∧
      (at' 0x1200 State.reset).nextWord.toNat = 0x1000 + (at' 0x1200 State.reset).pc.toNat) ∧
    ((at' 0x1FFE (pcAt 0xFFE)).pc.toNat ≤ 0xFFE ∧
      (at' 0x1FFE (pcAt 0xFFE)).nextWord.toNat = 0x1000 + (at' 0x1FFE (pcAt 0xFFE)).pc.toNat) := by decide

/-- Its implications' premises: X other than F, a sum above 255 and one of 255, operands below, equal and above. -/
theorem witness_AddAndSubtractSetFlag : (0 : Reg) ≠ 15 ∧
    255 < ((State.reset.setReg 0 0xFF).setReg 1 1 |>.reg 0).toNat + ((State.reset.setReg 0 0xFF).setReg 1 1 |>.reg 1).toNat ∧
    ¬ 255 < ((State.reset.setReg 0 0x80).setReg 1 0x7F |>.reg 0).toNat +
      ((State.reset.setReg 0 0x80).setReg 1 0x7F |>.reg 1).toNat := by decide

theorem witness_ShiftsTakeVy : (14 : Reg) ≠ 15 := by decide

theorem witness_DigitsAreStored : (State.reset.setI 0xFFD).i.toNat + 2 ≤ 4095 := by decide

theorem witness_RegistersAreStored : (State.reset.setI 0xFF0).i.toNat + (15 : Reg).val ≤ 4095 ∧
    (State.reset.setI 0xFFF).i.toNat + (0 : Reg).val ≤ 4095 := by decide

theorem witness_RegistersAreLoaded : (State.reset.setI 0xFF0).i.toNat + (15 : Reg).val ≤ 4095 ∧
    (State.reset.setI 0xFFF).i.toNat + (0 : Reg).val ≤ 4095 := by decide

theorem witness_StoreThenLoadRestoresRegisters :
    ∃ t, exec (.ldMemVx 15) (State.reset.setI 0xFF0) = .next t := ⟨_, rfl⟩

/-- P6's step 4: V0 = 62, V1 = 77, I = 0x208, `F155` at 0x206. -/
theorem witness_StoredBytesAreFetchedNext :
    (at' 0xF155 ((pcAt 0x206).setI 0x208)).pc.toNat ≤ 0xFFE ∧
    decodeWord (at' 0xF155 ((pcAt 0x206).setI 0x208)).nextWord = .ldMemVx 1 ∧
    (at' 0xF155 ((pcAt 0x206).setI 0x208)).i.toNat + (1 : Reg).val ≤ 4095 ∧
    (at' 0xF155 ((pcAt 0x206).setI 0x208)).i.toNat + (0 : Reg).val = (at' 0xF155 ((pcAt 0x206).setI 0x208)).pc.toNat + 2 ∧
    (at' 0xF155 ((pcAt 0x206).setI 0x208)).i.toNat + (1 : Reg).val = (at' 0xF155 ((pcAt 0x206).setI 0x208)).pc.toNat + 3 ∧
    (1 : Reg) ≤ 1 := by decide

/-- The last byte an FX33 and an FX55 change. -/
theorem witness_OnlyStoresWriteMemory :
    (∃ t, step (at' 0xF033 ((State.reset.setI 0x300).setReg 0 9)) = .next t ∧
      t.byteAt 0x302 ≠ (at' 0xF033 ((State.reset.setI 0x300).setReg 0 9)).byteAt 0x302) ∧
    (∃ t, step (at' 0xFF55 ((State.reset.setI 0x300).setReg 15 9)) = .next t ∧
      t.byteAt 0x30F ≠ (at' 0xFF55 ((State.reset.setI 0x300).setReg 15 9)).byteAt 0x30F) :=
  ⟨⟨_, rfl, by decide⟩, ⟨_, rfl, by decide⟩⟩

/-- Two bytes written in either order. -/
theorem witness_EqualReadsAreEqualMemories :
    Memory.wf (fun _ => 0) (Memory.write (fun _ => 0) (Memory.write (fun _ => 0) [] 0xFFF 1) 0 2) = true ∧
    Memory.wf (fun _ => 0) (Memory.write (fun _ => 0) (Memory.write (fun _ => 0) [] 0 2) 0xFFF 1) = true ∧
    (∀ a, a < 4096 → Memory.read (fun _ => 0) (Memory.write (fun _ => 0) (Memory.write (fun _ => 0) [] 0xFFF 1) 0 2) a =
      Memory.read (fun _ => 0) (Memory.write (fun _ => 0) (Memory.write (fun _ => 0) [] 0 2) 0xFFF 1) a) :=
  ⟨by decide, by decide, fun _ _ => rfl⟩

theorem witness_DrawTogglesVisibleBits :
    ((0 : BitVec 4).toNat = 0 ∨ (State.reset.setI 0xFFFF).i.toNat + (0 : BitVec 4).toNat - 1 ≤ 4095) ∧
    ((15 : BitVec 4).toNat = 0 ∨ (State.reset.setI 0xFF1).i.toNat + (15 : BitVec 4).toNat - 1 ≤ 4095) := by decide

theorem witness_DrawTwiceRestoresDisplay : ∃ t, (0 : Reg) ≠ 15 ∧ (14 : Reg) ≠ 15 ∧
    exec (.drw 0 14 15) (State.reset.setI 0xFF1) = .next t := ⟨_, by decide, by decide, rfl⟩

theorem witness_DisplayReadIsRowMajor : 63 < 64 ∧ 31 < 32 := by decide

theorem witness_SkipsOnKey :
    (((State.reset.setReg 3 15).reg 3).toNat = (15 : Key).val ∧ State.reset.cfg.autoRelease = false) ∧
    (((keyDown (autoMode.setReg 3 15) 15).reg 3).toNat = (15 : Key).val ∧ autoMode.cfg.autoRelease = true ∧
      (keyDown (autoMode.setReg 3 15) 15).key 15 = true) ∧
    (((autoMode.setReg 3 0).reg 3).toNat = (0 : Key).val ∧ (autoMode.setReg 3 0).key 0 = false) := by decide

theorem witness_KeyWaitTakesEvent :
    ({ State.reset with lastReleased := some 15 }.cfg.autoRelease = false ∧
      { State.reset with lastReleased := some 15 }.lastReleased = some 15) ∧
    ({ autoMode with lastPressed := some 15 }.cfg.autoRelease = true ∧
      { autoMode with lastPressed := some 15 }.lastPressed = some 15) := by decide

theorem witness_BlockedKeyWaitHoldsState :
    ((at' 0xF30A (pcAt 0xFFE)).pc.toNat ≤ 0xFFE ∧ decodeWord (at' 0xF30A (pcAt 0xFFE)).nextWord = .ldVxK 3 ∧
      (if (at' 0xF30A (pcAt 0xFFE)).cfg.autoRelease then (at' 0xF30A (pcAt 0xFFE)).lastPressed
        else (at' 0xF30A (pcAt 0xFFE)).lastReleased) = none) ∧
    ((at' 0xF30A autoMode).pc.toNat ≤ 0xFFE ∧ decodeWord (at' 0xF30A autoMode).nextWord = .ldVxK 3 ∧
      (if (at' 0xF30A autoMode).cfg.autoRelease then (at' 0xF30A autoMode).lastPressed
        else (at' 0xF30A autoMode).lastReleased) = none) := by decide

theorem witness_OnlyKeyWaitClearsLatches :
    (∃ t, step (at' 0xF30A { autoMode with lastPressed := some 4 }) = .next t ∧
      (at' 0xF30A { autoMode with lastPressed := some 4 }).lastPressed ≠ none ∧ t.lastPressed = none) ∧
    (∃ t, step (at' 0xF30A { State.reset with lastReleased := some 4 }) = .next t ∧
      (at' 0xF30A { State.reset with lastReleased := some 4 }).lastReleased ≠ none ∧ t.lastReleased = none) :=
  ⟨⟨_, rfl, by decide, rfl⟩, ⟨_, rfl, by decide, rfl⟩⟩

theorem witness_OtherLatchIsNeverRead :
    (∃ t, step (at' 0xF30A { State.reset with lastReleased := some 4 }) = .next t ∧ State.reset.cfg.autoRelease = false) ∧
    (∃ t, step (at' 0xF30A { autoMode with lastPressed := some 4 }) = .next t ∧ autoMode.cfg.autoRelease = true) :=
  ⟨⟨_, rfl, rfl⟩, ⟨_, rfl, rfl⟩⟩

theorem witness_KeyEventsSetFlagAndLatch : (0x0F : Byte).toNat = (15 : Key).val ∧ 15 < (0x10 : Byte).toNat := by decide

theorem witness_SoundTimerIsNeverRead : (∃ t, step (at' 0xF218 State.reset) = .next t) ∧
    step (pcAt 0xFFF) = .fault .addressOutOfRange := ⟨⟨_, rfl⟩, rfl⟩

/-- A register, the bytes just outside a store, an older stack entry, another key: none of them listed. -/
theorem witness_InstructionsWriteOnlyTheirSet :
    ((∃ t, exec (.addReg 0 1) State.reset = .next t) ∧ Piece.reg 14 ∉ writes State.reset (.addReg 0 1)) ∧
    ((∃ t, exec (.ldB 0) (State.reset.setI 0xFFC) = .next t) ∧ Piece.byte 0xFFB ∉ writes (State.reset.setI 0xFFC) (.ldB 0) ∧
      Piece.byte 0xFFF ∉ writes (State.reset.setI 0xFFC) (.ldB 0)) ∧
    ((∃ t, exec (.ldMemVx 1) (State.reset.setI 0x300) = .next t) ∧
      Piece.byte 0x302 ∉ writes (State.reset.setI 0x300) (.ldMemVx 1)) ∧
    ((∃ t, exec (.call 0x300) (deep 15) = .next t) ∧ Piece.stackEntry 14 ∉ writes (deep 15) (.call 0x300)) ∧
    ((∃ t, exec .ret (deep 16) = .next t) ∧ Piece.stackEntry 14 ∉ writes (deep 16) .ret) ∧
    ((∃ t, exec (.skp 3) (autoMode.setReg 3 7) = .next t) ∧ Piece.key 8 ∉ writes (autoMode.setReg 3 7) (.skp 3)) ∧
    ((∃ t, exec (.ldVxK 3) { autoMode with lastPressed := some 4 } = .next t) ∧
      Piece.key 5 ∉ writes { autoMode with lastPressed := some 4 } (.ldVxK 3)) :=
  ⟨⟨⟨_, rfl⟩, by decide⟩, ⟨⟨_, rfl⟩, by decide, by decide⟩, ⟨⟨_, rfl⟩, by decide⟩, ⟨⟨_, rfl⟩, by decide⟩, ⟨⟨_, rfl⟩, by decide⟩,
    ⟨⟨_, rfl⟩, by decide⟩, ⟨_, rfl⟩, by decide⟩

theorem witness_HostEventsLeaveProgramState :
    (Transaction.keyPress 0xFF = .tick ∨ (∃ k, Transaction.keyPress 0xFF = .keyPress k) ∨
      (∃ k, Transaction.keyPress 0xFF = .keyRelease k) ∨ Transaction.keyPress 0xFF = .displayRead) :=
  .inr (.inl ⟨_, rfl⟩)

theorem witness_ConfigurationIsConstant : ∃ t, (∀ c, Transaction.step ≠ .reset c) ∧ perform .step State.reset = .next t :=
  ⟨_, nofun, rfl⟩

theorem reset_inv : State.reset.Inv where
  configuration := by decide
  memory := by decide
  stackDepth := by decide
  returnAddresses := nofun
  pcBound := by decide
  romFits := by decide

/-- Each kind of transaction from a state with the invariant. -/
theorem witness_TransactionsKeepInvariant : State.reset.Inv ∧ (∃ t, perform .step State.reset = .next t) ∧
    (∃ t, perform .tick State.reset = .next t) ∧ (∃ t, perform (.keyPress 0x0F) State.reset = .next t) ∧
    (∃ t, perform (.keyRelease 0x10) State.reset = .next t) ∧ (∃ t, perform .displayRead State.reset = .next t) ∧
    (∃ t, perform (.loadFont []) State.reset = .next t) ∧ (∃ t, perform (.loadRom [0x12, 0x00]) State.reset = .next t) ∧
    (∃ t, perform (.reset Config.atReset) State.reset = .next t) :=
  ⟨reset_inv, ⟨_, rfl⟩, ⟨_, rfl⟩, ⟨_, rfl⟩, ⟨_, rfl⟩, ⟨_, rfl⟩, ⟨_, rfl⟩, ⟨_, rfl⟩, ⟨_, rfl⟩⟩

/-- The largest `ROM_START` and the largest `FONT_START`. -/
theorem witness_ResetHasInvariant :
    ({ Config.atReset with romStart := 3744, fontStart := 4016 } : Config).valid = true ∧ Config.atReset.valid = true := by
  decide

theorem witness_ReachableStatesHaveInvariant : Reachable State.reset := .start _ (by decide)

theorem witness_ResetSetsEveryPiece :
    ({ Config.atReset with romStart := 3744, fontStart := 4016 } : Config).valid = true := by decide

theorem witness_FontLoadCopiesEightyBytes : State.reset.started = false ∧ (List.replicate 80 (1 : Byte)).length = 80 ∧
    (List.replicate 79 (1 : Byte)).length ≠ 80 := by decide

theorem witness_RomLoadCopiesBytesThatFit : State.reset.started = false ∧
    (List.replicate 3232 (1 : Byte)).length ≤ 4096 - 352 - State.reset.cfg.romStart.toNat ∧
    4096 - 352 - State.reset.cfg.romStart.toNat < (List.replicate 3233 (1 : Byte)).length := by
  rw [List.length_replicate, List.length_replicate]; decide

theorem witness_LateLoadsAndBadResetsFault :
    { State.reset with started := true }.started = true ∧
    (3744 < ({ Config.atReset with romStart := 3745 } : Config).romStart.toNat ∨
      4096 < ({ Config.atReset with romStart := 3745 } : Config).fontStart.toNat + 80) ∧
    (3744 < ({ Config.atReset with fontStart := 4017 } : Config).romStart.toNat ∨
      4096 < ({ Config.atReset with fontStart := 4017 } : Config).fontStart.toNat + 80) ∧
    (∃ t, perform .step State.reset = .next t ∨ perform .tick State.reset = .next t) ∧
    (∃ t, perform .step (pcAt 0xFFF) = .next t ∨ perform .tick (pcAt 0xFFF) = .next t) :=
  ⟨rfl, by decide, by decide, ⟨_, .inl rfl⟩, ⟨_, .inr rfl⟩⟩

/-- At the largest `ROM_START` that leaves room for one word. -/
theorem witness_FirstStepRunsFirstRomWord :
    ({ Config.atReset with romStart := 3742 } : Config).valid = true ∧
    ((0x12 : Byte) :: 0x00 :: []).length ≤
      4096 - 352 - ({ Config.atReset with romStart := 3742 } : Config).romStart.toNat := by decide

end Sys2Proof.Tests
end

/-! Proofs about the encoding (spec/30_encoding.md section 4): which words decode to UNDEF, one selector table at a time. -/

namespace Sys2Proof

/-! ## Where `decodeWord` dispatches -/

theorem decodeWord_of_family_8 {w : Word} (hf : w.toNat / 4096 = 0x8) : decodeWord w = decodeFamily8 w := by
  simp only [decodeWord, opFamily_toNat, hf]

theorem decodeWord_of_family_E {w : Word} (hf : w.toNat / 4096 = 0xE) : decodeWord w = decodeFamilyE w := by
  simp only [decodeWord, opFamily_toNat, hf]

theorem decodeWord_of_family_F {w : Word} (hf : w.toNat / 4096 = 0xF) : decodeWord w = decodeFamilyF w := by
  simp only [decodeWord, opFamily_toNat, hf]

/-! ## Which selectors each family reserves -/

/-- R77: family 0 has no reserved word. -/
theorem decodeFamily0_ne_undef (w u : Word) : decodeFamily0 w ≠ .undef u := by
  unfold decodeFamily0
  split
  · exact Instr.noConfusion
  · split <;> exact Instr.noConfusion

/-- R78: family 8 reserves the low nibbles 8, 9, A, B, C, D and F. -/
theorem decodeFamily8_undef_iff (w : Word) :
    (∃ u, decodeFamily8 w = .undef u) ↔ 8 ≤ w.toNat % 16 ∧ w.toNat % 16 ≠ 0xE := by
  unfold decodeFamily8
  rw [opN_toNat]
  split
  case h_10 =>
    simp only [imp_false] at *
    exact ⟨fun _ => by omega, fun _ => ⟨w, rfl⟩⟩
  all_goals simp [*]

/-- R79: family E reserves every low byte but 9E and A1. -/
theorem decodeFamilyE_undef_iff (w : Word) :
    (∃ u, decodeFamilyE w = .undef u) ↔ w.toNat % 256 ≠ 0x9E ∧ w.toNat % 256 ≠ 0xA1 := by
  unfold decodeFamilyE
  rw [opNN_toNat]
  split
  case h_3 hskp hsknp => exact ⟨fun _ => ⟨hskp, hsknp⟩, fun _ => ⟨w, rfl⟩⟩
  all_goals simp [*]

/-- R80: family F reserves every low byte but its nine selectors. -/
theorem decodeFamilyF_undef_iff (w : Word) :
    (∃ u, decodeFamilyF w = .undef u) ↔
      w.toNat % 256 ∉ [0x07, 0x0A, 0x15, 0x18, 0x1E, 0x29, 0x33, 0x55, 0x65] := by
  unfold decodeFamilyF
  rw [opNN_toNat]
  split
  case h_10 =>
    simp only [imp_false] at *
    exact ⟨fun _ => by simp [*], fun _ => ⟨w, rfl⟩⟩
  all_goals simp [*]

/-- R75, R81: no other family has a reserved word, 5XYN and 9XYN (decision D8) included. -/
theorem decodeWord_ne_undef {w : Word} (h8 : w.toNat / 4096 ≠ 0x8) (hE : w.toNat / 4096 ≠ 0xE)
    (hF : w.toNat / 4096 ≠ 0xF) (u : Word) : decodeWord w ≠ .undef u := by
  unfold decodeWord
  rw [opFamily_toNat]
  split
  case h_1 => exact decodeFamily0_ne_undef w u
  case h_9 => contradiction
  case h_15 => contradiction
  case h_16 =>
    have hlt := w.isLt
    simp only [imp_false] at *
    omega
  all_goals exact Instr.noConfusion

/-! ## The reserved words -/

/-- Settles O4: the family nibble picks the selector table, and each table's reserved selectors are those of its own lemma. -/
theorem undefWordsAreTheReservedOnes : Obligations.UndefWordsAreTheReservedOnes := by
  unfold Obligations.UndefWordsAreTheReservedOnes
  intro w
  by_cases h8 : w.toNat / 4096 = 0x8
  · rw [decodeWord_of_family_8 h8, decodeFamily8_undef_iff]
    simp [h8]
  by_cases hE : w.toNat / 4096 = 0xE
  · rw [decodeWord_of_family_E hE, decodeFamilyE_undef_iff]
    simp [hE]
  by_cases hF : w.toNat / 4096 = 0xF
  · rw [decodeWord_of_family_F hF, decodeFamilyF_undef_iff]
    simp [hF]
  · simp [decodeWord_ne_undef h8 hE hF, h8, hE, hF]

end Sys2Proof

/-! Proofs about control flow (spec/40_control_flow.md): the call stack's two instructions and the skips on a constant, each
on the rule of the shared operation it calls. -/

namespace Sys2Proof.Machine

variable (s : State)

/-! ## The meanings behind `exec` -/

theorem exec_ret : exec .ret s = .next s.returnFromCall := rfl

theorem exec_call (nnn : BitVec 12) : exec (.call nnn) s = .next (s.callTo (addressOperand nnn)) := rfl

theorem exec_seImm (x : Reg) (nn : Byte) : exec (.seImm x nn) s = .next (s.skipIf (s.reg x == nn)) := rfl

theorem exec_sneImm (x : Reg) (nn : Byte) : exec (.sneImm x nn) s = .next (s.skipIf (s.reg x != nn)) := rfl

/-! ## Targets and skips -/

/-- R73: an address operand is zero-extended, so it is its constant as a number. -/
theorem addressOperand_toNat (nnn : BitVec 12) : (addressOperand nnn).toNat = nnn.toNat :=
  BitVec.toNat_setWidth_of_le (by decide)

/-- R109: a skip, taken or not, writes pc alone. -/
theorem State.skipIf_frame (taken : Bool) : { s.skipIf taken with pc := s.pc } = s := by
  cases taken <;> rfl

/-- R109: a taken skip adds 2 to pc, modulo 2^16. -/
theorem State.skipIf_pc_toNat (taken : Bool) :
    (s.skipIf taken).pc.toNat = if taken then (s.pc.toNat + 2) % 65536 else s.pc.toNat := by
  cases taken
  · rfl
  · exact BitVec.toNat_add s.pc 2

/-- A skip on equal values, by the values as unsigned numbers. -/
theorem State.skipIf_beq_pc_toNat (a b : Byte) :
    (s.skipIf (a == b)).pc.toNat = if a.toNat = b.toNat then (s.pc.toNat + 2) % 65536 else s.pc.toNat := by
  simp only [State.skipIf_pc_toNat, beq_iff_eq, BitVec.toNat_inj]

/-- A skip on different values, by the values as unsigned numbers. -/
theorem State.skipIf_bne_pc_toNat (a b : Byte) :
    (s.skipIf (a != b)).pc.toNat = if a.toNat = b.toNat then s.pc.toNat else (s.pc.toNat + 2) % 65536 := by
  simp only [State.skipIf_pc_toNat, bne_iff_ne, BitVec.toNat_inj, ite_not]

/-! ## The call stack, entry by entry -/

/-- A stack entry reads the same in two states with the same stack. -/
theorem State.stackEntry_congr {s t : State} (h : t.stack = s.stack) (j : Nat) : t.stackEntry j = s.stackEntry j := by
  unfold State.stackEntry; rw [h]

/-- The entries of a non-empty stack: the newest at index `SP - 1`, below it those of any state left with the rest. -/
theorem State.stackEntry_of_pop {s t : State} {top : Word} (h : s.stack = top :: t.stack) (j : Nat) :
    s.stackEntry j = if j = t.sp then some top else t.stackEntry j :=
  (State.stackEntry_congr (t := s) (s := t.push top) h j).trans (t.stackEntry_push top j)

end Sys2Proof.Machine

namespace Sys2Proof

open Machine

/-- Settles O12: of the two cases of `callTo`, the depth picks one; in it the pushed pc is the one new entry. -/
theorem callPushesReturnAddress : Obligations.CallPushesReturnAddress := by
  unfold Obligations.CallPushesReturnAddress
  intro nnn s
  rcases s.callTo_cases (addressOperand nnn) with ⟨hroom, hcall⟩ | ⟨hfull, hcall⟩
  · have hentry : ∀ j, { s with stack := s.pc :: s.stack, pc := addressOperand nnn }.stackEntry j =
        if j = s.sp then some s.pc else s.stackEntry j := State.stackEntry_of_pop rfl
    refine ⟨fun _ => ⟨_, (exec_call s nnn).trans (congrArg _ hcall), rfl, ?_, fun j hj => ?_, addressOperand_toNat nnn, rfl⟩,
      fun h => by omega⟩
    · rw [hentry, if_pos rfl]
    · rw [hentry, if_neg hj.ne]
  · exact ⟨fun h => by omega, fun _ => by rw [exec_call, hcall]⟩

/-- Settles O13: of the two cases of `returnFromCall`, the depth picks one; in it pc is the newest entry and the rest stays. -/
theorem returnPopsNewestEntry : Obligations.ReturnPopsNewestEntry := by
  unfold Obligations.ReturnPopsNewestEntry
  intro s
  rcases s.returnFromCall_cases with ⟨hnil, hret⟩ | ⟨top, rest, hcons, hret⟩
  · have hsp : s.sp = 0 := congrArg List.length hnil
    exact ⟨fun h => by omega, fun _ => by rw [exec_ret, hret]⟩
  · have hsp : s.sp = rest.length + 1 := congrArg List.length hcons
    have hentry := State.stackEntry_of_pop (t := { s with stack := rest, pc := top }) hcons
    refine ⟨fun _ => ⟨_, (exec_ret s).trans (congrArg _ hret), Nat.eq_sub_of_add_eq hsp.symm, ?_, fun j hj => ?_, rfl⟩,
      fun h => by omega⟩
    · rw [hentry, if_pos (Nat.sub_eq_of_eq_add hsp)]
    · rw [hentry, if_neg hj.ne]

/-- Settles O15: both skips are `skipIf`, which writes pc alone and by the condition on unsigned values. -/
theorem skipsOnConstant : Obligations.SkipsOnConstant := by
  unfold Obligations.SkipsOnConstant
  intro x nn s
  exact ⟨⟨_, exec_seImm s x nn, s.skipIf_frame _, s.skipIf_beq_pc_toNat _ _⟩,
    ⟨_, exec_sneImm s x nn, s.skipIf_frame _, s.skipIf_bne_pc_toNat _ _⟩⟩

end Sys2Proof

/-! Proofs about loads, logic and the constant addition (spec/41_alu.md): each is one register write, so its result and its
frame are those of `setReg`. -/

namespace Sys2Proof.Machine

/-! ## A register write, read back and framed -/

theorem State.reg_setReg_self (s : State) (x : Reg) (b : Byte) : (s.setReg x b).reg x = b := by
  rw [State.reg_setReg, if_pos rfl]

theorem OnlyRegsChanged.refl (s : State) (rs : List Reg) : OnlyRegsChanged s s rs := ⟨fun _ _ => rfl, rfl⟩

/-- A further write of a listed register stays within the list. -/
theorem OnlyRegsChanged.setReg {s t : State} {rs : List Reg} {x : Reg} (h : OnlyRegsChanged s t rs) (hx : x ∈ rs)
    (b : Byte) : OnlyRegsChanged s (t.setReg x b) rs := by
  obtain ⟨hregs, hrest⟩ := h
  refine ⟨fun r hr => ?_, hrest⟩
  have hne : x ≠ r := fun e => hr (e ▸ hx)
  rw [State.reg_setReg, if_neg hne, hregs r hr]

theorem State.onlyRegsChanged_setReg (s : State) (x : Reg) (b : Byte) : OnlyRegsChanged s (s.setReg x b) [x] :=
  (OnlyRegsChanged.refl s [x]).setReg List.mem_cons_self b

/-! ## The meanings behind `exec` -/

variable (s : State)

theorem exec_ldImm (x : Reg) (nn : Byte) : exec (.ldImm x nn) s = .next (s.setReg x nn) := rfl

theorem exec_addImm (x : Reg) (nn : Byte) : exec (.addImm x nn) s = .next (s.setReg x (s.reg x + nn)) := rfl

theorem exec_ldReg (x y : Reg) : exec (.ldReg x y) s = .next (s.setReg x (s.reg y)) := rfl

theorem exec_or (x y : Reg) : exec (.or x y) s = .next (s.setReg x (s.reg x ||| s.reg y)) := rfl

theorem exec_and (x y : Reg) : exec (.and x y) s = .next (s.setReg x (s.reg x &&& s.reg y)) := rfl

theorem exec_xor (x y : Reg) : exec (.xor x y) s = .next (s.setReg x (s.reg x ^^^ s.reg y)) := rfl

end Sys2Proof.Machine

namespace Sys2Proof

open Machine

/-- Settles O18: each meaning is one write of VX, read back as the value written, bit by bit for the logic. -/
theorem loadsAndLogicWriteVx : Obligations.LoadsAndLogicWriteVx := by
  unfold Obligations.LoadsAndLogicWriteVx
  refine ⟨fun x nn s => ?_, fun x y s => ?_, fun x y s => ?_, fun x y s => ?_, fun x y s => ?_⟩
  · exact ⟨_, exec_ldImm s x nn, s.reg_setReg_self x _, s.onlyRegsChanged_setReg x _⟩
  · exact ⟨_, exec_ldReg s x y, s.reg_setReg_self x _, s.onlyRegsChanged_setReg x _⟩
  · refine ⟨_, exec_or s x y, s.onlyRegsChanged_setReg x _, fun k => ?_⟩
    rw [State.reg_setReg_self, BitVec.getLsbD_or]
  · refine ⟨_, exec_and s x y, s.onlyRegsChanged_setReg x _, fun k => ?_⟩
    rw [State.reg_setReg_self, BitVec.getLsbD_and]
  · refine ⟨_, exec_xor s x y, s.onlyRegsChanged_setReg x _, fun k => ?_⟩
    rw [State.reg_setReg_self, BitVec.getLsbD_xor]

/-- Settles O19: the one write is of VX, and addition of bytes is addition modulo 256. -/
theorem addConstantSetsNoFlag : Obligations.AddConstantSetsNoFlag := by
  unfold Obligations.AddConstantSetsNoFlag
  intro x nn s
  refine ⟨_, exec_addImm s x nn, ?_, s.onlyRegsChanged_setReg x _⟩
  rw [State.reg_setReg_self]
  exact BitVec.toNat_add (s.reg x) nn

end Sys2Proof

/-! Proofs about the index register (spec/42_index_memory.md): each instruction is one write of I, and FX29's glyph address
never wraps. -/

namespace Sys2Proof.Machine

/-- R73: a byte operand is zero-extended, so it is its value as a number. -/
theorem zext16_toNat (b : Byte) : (zext16 b).toNat = b.toNat :=
  BitVec.toNat_setWidth_of_le (by decide)

/-- R142: a 12-bit start and five times a byte stay below 2^16, so the sum is one of natural numbers. -/
theorem glyphAddress_toNat (c : Config) (vx : Byte) : (glyphAddress c vx).toNat = c.fontStart.toNat + 5 * vx.toNat := by
  have hstart : (c.fontStart.setWidth 16).toNat = c.fontStart.toNat := addressOperand_toNat c.fontStart
  have hsmall : c.fontStart.toNat + 5 * vx.toNat < 2 ^ 16 := by omega
  rw [glyphAddress, BitVec.toNat_add, BitVec.toNat_mul, hstart, zext16_toNat, Nat.add_mod_mod]
  exact Nat.mod_eq_of_lt hsmall

variable (s : State)

theorem State.setI_frame (w : Word) : { s.setI w with i := s.i } = s := rfl

/-! ## The meanings behind `exec` -/

theorem exec_ldI (nnn : BitVec 12) : exec (.ldI nnn) s = .next (s.setI (addressOperand nnn)) := rfl

theorem exec_addI (x : Reg) : exec (.addI x) s = .next (s.setI (s.i + zext16 (s.reg x))) := rfl

theorem exec_ldF (x : Reg) : exec (.ldF x) s = .next (s.setI (glyphAddress s.cfg (s.reg x))) := rfl

end Sys2Proof.Machine

namespace Sys2Proof

open Machine

/-- Settles O23: each meaning is one write of I, framed by `setI_frame`; only FX1E's sum can pass 2^16. -/
theorem indexInstructionsWriteI : Obligations.IndexInstructionsWriteI := by
  unfold Obligations.IndexInstructionsWriteI
  refine ⟨fun nnn s => ?_, fun x s => ?_, fun x s => ?_⟩
  · exact ⟨_, exec_ldI s nnn, addressOperand_toNat nnn, s.setI_frame _⟩
  · refine ⟨_, exec_addI s x, ?_, s.setI_frame _⟩
    rw [State.setI_i, BitVec.toNat_add, zext16_toNat]
  · exact ⟨_, exec_ldF s x, glyphAddress_toNat s.cfg (s.reg x), s.setI_frame _⟩

end Sys2Proof

/-! Proofs about the display controller (spec/43_display.md): the clear is one write of the frame buffer, and a draw toggles
the visible cells under the sprite's set bits, so that the same draw again toggles them back. -/

namespace Sys2Proof.Machine

variable {s t : State} {x y : Reg} {n : BitVec 4} {vx vy : Byte} {rows a b : Nat}

/-! ## The frame buffer, written whole -/

theorem pixelAt_blankDisplay (a b : Nat) : pixelAt blankDisplay a b = false := by
  unfold pixelAt
  split
  · simp only [blankDisplay, Vector.getElem_replicate]
  · rfl

theorem State.setDisp_frame (s : State) (d : Display) : { s.setDisp d with disp := s.disp } = s := rfl

theorem exec_cls (s : State) : exec .cls s = .next (s.setDisp blankDisplay) := rfl

/-! ## One draw -/

/-- R162: a draw toggles exactly the visible cells under set bits of the sprite. -/
theorem State.pixelAt_drawn (ha : a < 64) (hb : b < 32) :
    pixelAt (s.drawn vx vy rows).1 a b ≠ s.pixel a b ↔ spriteBit s rows (vx.toNat % 64) (vy.toNat % 32) a b :=
  (pixelAt_plotSprite (originColumn vx) _ (originRow vy) (s.disp, false) a b ha hb).trans (rowsBit_spriteRows ..)

/-- R162: a draw collides exactly where a visible set bit of the sprite fell on a cell that was on. -/
theorem State.collision_drawn : (s.drawn vx vy rows).2 = true ↔ ∃ a b, a < 64 ∧ b < 32 ∧ s.pixel a b = true ∧
    spriteBit s rows (vx.toNat % 64) (vy.toNat % 32) a b := by
  rw [State.drawn, collision_plotSprite, or_iff_right Bool.false_ne_true]
  refine exists₂_congr fun a b => and_congr_right' (and_congr_right' ?_)
  rw [rowsBit_spriteRows]
  exact and_comm

theorem flagByte_eq_one_iff (f : Bool) : flagByte f = 1 ↔ f = true := by
  cases f <;> decide

theorem exec_drw_next : exec (.drw x y n) s = .next t ↔ (n.toNat = 0 ∨ s.i.toNat + n.toNat - 1 ≤ 4095) ∧
    t = (s.setDisp (s.drawn (s.reg x) (s.reg y) n.toNat).1).setReg vf
      (flagByte (s.drawn (s.reg x) (s.reg y) n.toNat).2) :=
  execDrw_next x y n

/-- A draw that answers leaves I, the memory and every register but VF as they were. -/
theorem exec_drw_frame (h : exec (.drw x y n) s = .next t) :
    t.i = s.i ∧ (∀ c, t.byteAt c = s.byteAt c) ∧ ∀ r, r ≠ 15 → t.reg r = s.reg r := by
  obtain ⟨-, rfl⟩ := exec_drw_next.mp h
  refine ⟨rfl, fun _ => rfl, fun r hr => ?_⟩
  have hvf : vf ≠ r := hr.symm
  rw [State.reg_setReg, if_neg hvf, State.reg_setDisp]

theorem exec_drw_disp (h : exec (.drw x y n) s = .next t) : t.disp = (s.drawn (s.reg x) (s.reg y) n.toNat).1 := by
  obtain ⟨-, rfl⟩ := exec_drw_next.mp h
  rfl

theorem exec_drw_flag (h : exec (.drw x y n) s = .next t) :
    t.reg 15 = 1 ↔ (s.drawn (s.reg x) (s.reg y) n.toNat).2 = true := by
  obtain ⟨-, rfl⟩ := exec_drw_next.mp h
  change (State.setReg _ vf _).reg vf = 1 ↔ _
  rw [State.reg_setReg_self, flagByte_eq_one_iff]

/-! ## The same draw again -/

/-- The sprite's bits depend on I and the memory alone. -/
theorem spriteBit_congr (hi : t.i = s.i) (hmem : ∀ c, t.byteAt c = s.byteAt c) (px py : Nat) :
    spriteBit t rows px py a b ↔ spriteBit s rows px py a b := by
  simp only [spriteBit, hi, hmem]

section

variable (hi : t.i = s.i) (hmem : ∀ c, t.byteAt c = s.byteAt c) (hdisp : t.disp = (s.drawn vx vy rows).1)
include hi hmem hdisp

/-- Each cell is toggled by both draws or by neither. -/
theorem State.drawn_again_restores : (t.drawn vx vy rows).1 = s.disp := by
  refine display_ext fun a b ha hb => ?_
  have hfirst : t.pixel a b ≠ s.pixel a b ↔ spriteBit s rows (vx.toNat % 64) (vy.toNat % 32) a b := by
    rw [State.pixel, hdisp]
    exact State.pixelAt_drawn ha hb
  have hsecond : pixelAt (t.drawn vx vy rows).1 a b ≠ t.pixel a b ↔
      spriteBit s rows (vx.toNat % 64) (vy.toNat % 32) a b :=
    (State.pixelAt_drawn ha hb).trans (spriteBit_congr hi hmem _ _)
  change pixelAt (t.drawn vx vy rows).1 a b = s.pixel a b
  by_cases hbit : spriteBit s rows (vx.toNat % 64) (vy.toNat % 32) a b
  · rw [Bool.eq_not.mpr (hsecond.mpr hbit), Bool.eq_not.mpr (hfirst.mpr hbit), Bool.not_not]
  · rw [not_not.mp (mt hsecond.mp hbit), not_not.mp (mt hfirst.mp hbit)]

/-- Under a set bit a cell is on after the first draw exactly where it was off before it. -/
theorem State.collision_drawn_again : (t.drawn vx vy rows).2 = true ↔ ∃ a b, a < 64 ∧ b < 32 ∧ s.pixel a b = false ∧
    spriteBit s rows (vx.toNat % 64) (vy.toNat % 32) a b := by
  rw [State.collision_drawn]
  refine exists₂_congr fun a b => and_congr_right fun ha => and_congr_right fun hb => ?_
  rw [spriteBit_congr hi hmem]
  refine and_congr_left fun hbit => ?_
  have htoggled : t.pixel a b = !s.pixel a b := by
    rw [State.pixel, hdisp]
    exact Bool.eq_not.mpr ((State.pixelAt_drawn ha hb).mpr hbit)
  rw [htoggled, Bool.not_eq_true']

end

end Sys2Proof.Machine

namespace Sys2Proof

open Machine

/-- Settles O31: the clear is one write of the frame buffer, whose cells are all off. -/
theorem clearTurnsEveryCellOff : Obligations.ClearTurnsEveryCellOff := by
  unfold Obligations.ClearTurnsEveryCellOff
  intro s
  exact ⟨_, exec_cls s, fun a b _ _ => pixelAt_blankDisplay a b, s.setDisp_frame _⟩

/-- Settles O33: the first draw leaves the sprite and its position, so the second toggles the same cells back, and a cell it
finds on was off before the first. -/
theorem drawTwiceRestoresDisplay : Obligations.DrawTwiceRestoresDisplay := by
  unfold Obligations.DrawTwiceRestoresDisplay
  intro x y n s t hx hy hfirst
  obtain ⟨hi, hmem, hregs⟩ := exec_drw_frame hfirst
  have hdisp := exec_drw_disp hfirst
  have hrange : n.toNat = 0 ∨ t.i.toNat + n.toNat - 1 ≤ 4095 := hi ▸ (exec_drw_next.mp hfirst).1
  obtain ⟨u, hsecond⟩ : ∃ u, exec (.drw x y n) t = .next u := ⟨_, exec_drw_next.mpr ⟨hrange, rfl⟩⟩
  refine ⟨u, hsecond, ?_, ?_⟩
  · rw [exec_drw_disp hsecond, hregs x hx, hregs y hy]
    exact State.drawn_again_restores hi hmem hdisp
  · rw [exec_drw_flag hsecond, hregs x hx, hregs y hy]
    exact State.collision_drawn_again hi hmem hdisp

end Sys2Proof

/-! Proofs about the timers (spec/45_timers.md): the instructions each move one byte, and a run of ticks is `State.tick`
iterated, which counts each timer down apart from the other. -/

namespace Sys2Proof.Machine

variable (s : State)

/-! ## The meanings behind `exec` -/

theorem exec_ldVxDt (x : Reg) : exec (.ldVxDt x) s = .next (s.setReg x s.dt) := rfl

theorem exec_ldDtVx (x : Reg) : exec (.ldDtVx x) s = .next (s.setDT (s.reg x)) := rfl

theorem exec_ldStVx (x : Reg) : exec (.ldStVx x) s = .next (s.setST (s.reg x)) := rfl

/-! ## A timer load, framed -/

theorem State.setDT_frame (b : Byte) : { s.setDT b with dt := s.dt } = s := rfl

theorem State.setST_frame (b : Byte) : { s.setST b with st := s.st } = s := rfl

/-! ## One tick -/

/-- R183: a timer's count down, floored at 0, is the subtraction of natural numbers. -/
theorem countDown_toNat (b : Byte) : (if b = 0 then 0 else b - 1).toNat = b.toNat - 1 := by
  split
  next hzero => rw [hzero]; rfl
  next hpos => bv_omega

theorem State.tick_dt_toNat : s.tick.dt.toNat = s.dt.toNat - 1 := countDown_toNat s.dt

theorem State.tick_st_toNat : s.tick.st.toNat = s.st.toNat - 1 := countDown_toNat s.st

/-! ## Many ticks -/

/-- A tick always answers, so a run of ticks is `State.tick` iterated. -/
theorem performAll_replicate_tick (n : Nat) : performAll (List.replicate n .tick) s = .next (State.tick^[n] s) := by
  induction n generalizing s with
  | zero => rfl
  | succ n ih => exact ih s.tick

theorem State.iterate_tick_dt_toNat (n : Nat) : (State.tick^[n] s).dt.toNat = s.dt.toNat - n := by
  induction n with
  | zero => rfl
  | succ n ih => rw [Function.iterate_succ_apply', State.tick_dt_toNat, ih, Nat.sub_sub]

theorem State.iterate_tick_st_toNat (n : Nat) : (State.tick^[n] s).st.toNat = s.st.toNat - n := by
  induction n with
  | zero => rfl
  | succ n ih => rw [Function.iterate_succ_apply', State.tick_st_toNat, ih, Nat.sub_sub]

/-- Ticks write the timers and the model's mark that the run has begun, and nothing else. -/
theorem State.iterate_tick_frame (n : Nat) :
    { State.tick^[n] s with dt := s.dt, st := s.st, started := s.started } = s := by
  induction n with
  | zero => rfl
  | succ n ih =>
    rw [Function.iterate_succ_apply']
    exact ih

end Sys2Proof.Machine

namespace Sys2Proof

open Machine

/-- Settles O41: FX07 is one register write, FX15 and FX18 one timer write each. -/
theorem timerInstructionsMoveBytes : Obligations.TimerInstructionsMoveBytes := by
  unfold Obligations.TimerInstructionsMoveBytes
  intro x s
  exact ⟨⟨_, exec_ldVxDt s x, s.reg_setReg_self x _, s.onlyRegsChanged_setReg x _⟩,
    ⟨_, exec_ldDtVx s x, s.setDT_dt _, s.setDT_frame _⟩,
    ⟨_, exec_ldStVx s x, s.setST_st _, s.setST_frame _⟩⟩

/-- Settles O42: the run of ticks is `State.tick` iterated, whose timers and frame are by induction on the number of ticks. -/
theorem ticksCountDownToZero : Obligations.TicksCountDownToZero := by
  unfold Obligations.TicksCountDownToZero
  intro n s
  exact ⟨_, performAll_replicate_tick s n, s.iterate_tick_dt_toNat n, s.iterate_tick_st_toNat n, s.iterate_tick_frame n⟩

end Sys2Proof

/-! Proofs about the words that do nothing (spec/60_exceptions.md R204): 0NNN and the reserved words each decode to an
instruction whose meaning is the state it is given, so a step at one is the pc advance alone. -/

namespace Sys2Proof

/-! ## The words that decode to SYS or UNDEF -/

theorem decodeWord_of_family_0 {w : Word} (hf : w.toNat / 4096 = 0x0) : decodeWord w = decodeFamily0 w := by
  simp only [decodeWord, opFamily_toNat, hf]

/-- R77: every word of family 0 but the two exact ones is SYS. -/
theorem decodeWord_eq_sys {w : Word} (hf : w.toNat < 0x1000) (hcls : w ≠ 0x00E0) (hret : w ≠ 0x00EE) :
    decodeWord w = .sys (opNNN w) := by
  rw [decodeWord_of_family_0 (Nat.div_eq_of_lt hf), decodeFamily0, if_neg hcls, if_neg hret]

/-- The list behind `Instr.wf` agrees with the ranges of R78 to R80: a nibble from 8 up is one of the seven listed, or E. -/
theorem isUndefWord_iff (w : Word) : isUndefWord w = true ↔
    (w.toNat / 4096 = 8 ∧ (8 ≤ w.toNat % 16 ∧ w.toNat % 16 ≠ 0xE)) ∨
    (w.toNat / 4096 = 0xE ∧ w.toNat % 256 ≠ 0x9E ∧ w.toNat % 256 ≠ 0xA1) ∨
    (w.toNat / 4096 = 0xF ∧ w.toNat % 256 ∉ [0x07, 0x0A, 0x15, 0x18, 0x1E, 0x29, 0x33, 0x55, 0x65]) := by
  have hnibble : w.toNat % 16 ∈ [0x8, 0x9, 0xA, 0xB, 0xC, 0xD, 0xF] ↔ 8 ≤ w.toNat % 16 ∧ w.toNat % 16 ≠ 0xE := by
    simp only [List.mem_cons, List.not_mem_nil, or_false]
    omega
  have hselector : w.toNat % 256 ∉ [0x9E, 0xA1] ↔ w.toNat % 256 ≠ 0x9E ∧ w.toNat % 256 ≠ 0xA1 := by
    simp only [List.mem_cons, List.not_mem_nil, or_false, not_or, ne_eq]
  rw [← hnibble, ← hselector]
  simp only [isUndefWord, Bool.or_eq_true, Bool.and_eq_true, beq_iff_eq, Bool.not_eq_true', ← Bool.not_eq_true,
    List.contains_iff_mem, or_assoc]

/-- The words on the list are those that decode to UNDEF. -/
theorem exists_decodeWord_eq_undef_iff (w : Word) : (∃ u, decodeWord w = .undef u) ↔ isUndefWord w = true :=
  (undefWordsAreTheReservedOnes w).trans (isUndefWord_iff w).symm

end Sys2Proof

namespace Sys2Proof.Machine

/-! ## The meanings behind `exec` -/

theorem exec_sys (s : State) (nnn : BitVec 12) : exec (.sys nnn) s = .next s := rfl

theorem exec_undef (s : State) (w : Word) : exec (.undef w) s = .next s := rfl

/-! ## A step at such a word -/

/-- A step whose instruction answers the state it is given is the pc advance alone. -/
theorem step_eq_beginStep {s : State} {i : Instr} (hpc : s.pc.toNat ≤ 0xFFE) (hdecode : decodeWord s.nextWord = i)
    (hsilent : exec i s.beginStep = .next s.beginStep) : step s = .next s.beginStep := by
  rw [← hsilent, ← hdecode]
  exact step_eq_exec s hpc

end Sys2Proof.Machine

namespace Sys2Proof

open Machine

/-- Settles O8: a reserved word decodes to UNDEF and a word of family 0 to SYS, and neither changes the advanced state. -/
theorem silentWordsOnlyAdvance : Obligations.SilentWordsOnlyAdvance := by
  unfold Obligations.SilentWordsOnlyAdvance
  refine ⟨fun nnn s => exec_sys s nnn, fun w s => exec_undef s w, fun s hpc hword => ?_⟩
  rcases hword with hreserved | ⟨hfamily, hcls, hret⟩
  · obtain ⟨u, hdecode⟩ := (exists_decodeWord_eq_undef_iff s.nextWord).mpr hreserved
    exact step_eq_beginStep hpc hdecode (exec_undef _ u)
  · exact step_eq_beginStep hpc (decodeWord_eq_sys hfamily hcls hret) (exec_sys _ _)

end Sys2Proof

/-! Proofs about the load transactions (spec/70_reset_and_hazards.md R236, R237): before the run each performs its body, which
either stores the bytes given or answers the state as it was. -/

namespace Sys2Proof.Machine

variable {s : State} {a c j : Nat} {bytes : List Byte}

/-! ## A store of bytes, read back and framed -/

theorem State.byteAt_storeBytes_add (hj : j < bytes.length) : (s.storeBytes a bytes).byteAt (a + j) = bytes[j] := by
  have hinside : a ≤ a + j ∧ a + j < a + bytes.length := by omega
  simp only [State.byteAt_storeBytes, dif_pos hinside, Nat.add_sub_cancel_left]

theorem State.byteAt_storeBytes_outside (hc : c < a ∨ a + bytes.length ≤ c) :
    (s.storeBytes a bytes).byteAt c = s.byteAt c := by
  have houtside : ¬(a ≤ c ∧ c < a + bytes.length) := by omega
  rw [State.byteAt_storeBytes, dif_neg houtside]

theorem State.storeBytes_frame (s : State) (a : Nat) (bytes : List Byte) :
    { s.storeBytes a bytes with mem := s.mem } = s := rfl

/-! ## The bodies of the load transactions -/

theorem State.loadFontBytes_of_length_eq (h : bytes.length = 80) :
    s.loadFontBytes bytes = (.succeeded, s.storeBytes s.cfg.fontStart.toNat bytes) := if_pos h

theorem State.loadFontBytes_of_length_ne (h : bytes.length ≠ 80) : s.loadFontBytes bytes = (.failed, s) := if_neg h

theorem State.loadRomBytes_of_le (h : bytes.length ≤ romCapacity s.cfg) : s.loadRomBytes bytes =
    (.succeeded, { s.storeBytes s.cfg.romStart.toNat bytes with romSize := bytes.length }) := if_pos h

theorem State.loadRomBytes_of_lt (h : romCapacity s.cfg < bytes.length) : s.loadRomBytes bytes = (.failed, s) :=
  if_neg (Nat.not_le.mpr h)

/-! ## The load transactions before the run -/

section

variable {result : LoadResult} {t : State} (hrun : s.started = false)
include hrun

/-- R238: before the run, `LoadFont` goes to the state its body answers. -/
theorem perform_loadFont_of_body (hbody : s.loadFontBytes bytes = (result, t)) :
    perform (.loadFont bytes) s = .next t := by
  rw [perform, loadFont, hrun, hbody]
  rfl

/-- R238: before the run, `LoadRom` goes to the state its body answers. -/
theorem perform_loadRom_of_body (hbody : s.loadRomBytes bytes = (result, t)) :
    perform (.loadRom bytes) s = .next t := by
  rw [perform, loadRom, hrun, hbody]
  rfl

end

end Sys2Proof.Machine

namespace Sys2Proof

open Machine

/-- Settles O51: of the two cases of the body of `LoadFont` the length picks one; it is one store of bytes, or no change. -/
theorem fontLoadCopiesEightyBytes : Obligations.FontLoadCopiesEightyBytes := by
  unfold Obligations.FontLoadCopiesEightyBytes
  intro bytes s hrun
  refine ⟨fun hlength => ?_, fun hlength => ?_⟩
  · have hbody := State.loadFontBytes_of_length_eq (s := s) hlength
    exact ⟨_, hbody, perform_loadFont_of_body hrun hbody, fun j hj => State.byteAt_storeBytes_add _,
      fun a ha => State.byteAt_storeBytes_outside (hlength.symm ▸ ha), s.storeBytes_frame _ _⟩
  · have hbody := State.loadFontBytes_of_length_ne (s := s) hlength
    exact ⟨hbody, perform_loadFont_of_body hrun hbody⟩

/-- Settles O52: of the two cases of the body of `LoadRom` the capacity picks one; it is one store of bytes and the record
of their number, which no read of memory sees, or no change. -/
theorem romLoadCopiesBytesThatFit : Obligations.RomLoadCopiesBytesThatFit := by
  unfold Obligations.RomLoadCopiesBytesThatFit
  intro bytes s hrun
  refine ⟨fun hfits => ?_, fun htoolong => ?_⟩
  · have hbody := State.loadRomBytes_of_le (s := s) hfits
    have hread : ∀ a, { s.storeBytes s.cfg.romStart.toNat bytes with romSize := bytes.length }.byteAt a =
        (s.storeBytes s.cfg.romStart.toNat bytes).byteAt a := State.byteAt_congr rfl rfl
    exact ⟨_, hbody, perform_loadRom_of_body hrun hbody, fun j hj => (hread _).trans (State.byteAt_storeBytes_add hj),
      fun a ha => (hread a).trans (State.byteAt_storeBytes_outside ha), rfl,
      s.storeBytes_frame s.cfg.romStart.toNat bytes⟩
  · have hbody := State.loadRomBytes_of_lt (s := s) htoolong
    exact ⟨hbody, perform_loadRom_of_body hrun hbody⟩

end Sys2Proof

/-! Proofs about the encoding as a whole (spec/30_encoding.md section 4): decode keeps every bit of the word, so encode
inverts it, and no two well-formed instructions share a word. -/

namespace Sys2Proof

/-! ## A word packed again from the family nibble decode looked at -/

section

variable {w : Word} {f : Nat}

theorem packNNN_of_family (h : (opFamily w).toNat = f) : packNNN (BitVec.ofNat 4 f) (opNNN w) = w := by
  rw [← h, BitVec.ofNat_toNat, BitVec.setWidth_eq, packNNN_fields]

theorem packXNN_of_family (h : (opFamily w).toNat = f) : packXNN (BitVec.ofNat 4 f) (opX w) (opNN w) = w := by
  rw [← h, BitVec.ofNat_toNat, BitVec.setWidth_eq, packXNN_fields]

theorem packXYN_of_family (h : (opFamily w).toNat = f) :
    packXYN (BitVec.ofNat 4 f) (opX w) (opY w) (opN w) = w := by
  rw [← h, BitVec.ofNat_toNat, BitVec.setWidth_eq, packXYN_fields]

theorem packXYN_of_selector {n : Nat} (h : (opFamily w).toNat = f) (hn : (opN w).toNat = n) :
    packXYN (BitVec.ofNat 4 f) (opX w) (opY w) (BitVec.ofNat 4 n) = w := by
  rw [← hn, BitVec.ofNat_toNat, BitVec.setWidth_eq, packXYN_of_family h]

theorem packXNN_of_selector {nn : Nat} (h : (opFamily w).toNat = f) (hn : (opNN w).toNat = nn) :
    packXNN (BitVec.ofNat 4 f) (opX w) (BitVec.ofNat 8 nn) = w := by
  rw [← hn, BitVec.ofNat_toNat, BitVec.setWidth_eq, packXNN_of_family h]

end

/-! ## Encode after decode, one selector table at a time -/

theorem encode_decodeFamily0 {w : Word} (h : (opFamily w).toNat = 0) : encode (decodeFamily0 w) = w := by
  unfold decodeFamily0
  split
  next hcls => exact hcls.symm
  next =>
    split
    next hret => exact hret.symm
    next => exact packNNN_of_family h

theorem encode_decodeFamily8 {w : Word} (h : (opFamily w).toNat = 8) : encode (decodeFamily8 w) = w := by
  unfold decodeFamily8
  split
  case h_10 => rfl
  all_goals exact packXYN_of_selector h ‹_›

theorem encode_decodeFamilyE {w : Word} (h : (opFamily w).toNat = 0xE) : encode (decodeFamilyE w) = w := by
  unfold decodeFamilyE
  split
  case h_3 => rfl
  all_goals exact packXNN_of_selector h ‹_›

theorem encode_decodeFamilyF {w : Word} (h : (opFamily w).toNat = 0xF) : encode (decodeFamilyF w) = w := by
  unfold decodeFamilyF
  split
  case h_10 => rfl
  all_goals exact packXNN_of_selector h ‹_›

/-- R75: no bit of a word is dropped. -/
theorem encode_decodeWord (w : Word) : encode (decodeWord w) = w := by
  unfold decodeWord
  split
  case h_1 h => exact encode_decodeFamily0 h
  case h_9 h => exact encode_decodeFamily8 h
  case h_15 h => exact encode_decodeFamilyE h
  case h_16 =>
    refine encode_decodeFamilyF ?_
    have hlt := (opFamily w).isLt
    simp only [imp_false] at *
    omega
  case h_4 | h_5 | h_7 | h_8 | h_13 => exact packXNN_of_family ‹_›
  case h_6 | h_10 | h_14 => exact packXYN_of_family ‹_›
  all_goals exact packNNN_of_family ‹_›

/-- An UNDEF instruction holds the word it came from. -/
theorem eq_of_decodeWord_eq_undef {w u : Word} (h : decodeWord w = .undef u) : u = w := by
  have hround := encode_decodeWord w
  rwa [h] at hround

/-! ## Decode answers well-formed instructions only -/

theorem wf_decodeWord (w : Word) : (decodeWord w).wf = true := by
  cases h : decodeWord w with
  | sys nnn =>
    have hround : packNNN 0x0 nnn = w := by rw [← encode_decodeWord w, h]; rfl
    have hcls : nnn ≠ 0x0E0 := by
      rintro rfl
      rw [← hround] at h
      exact absurd h (by decide)
    have hret : nnn ≠ 0x0EE := by
      rintro rfl
      rw [← hround] at h
      exact absurd h (by decide)
    simp only [Instr.wf, Bool.and_eq_true, bne_iff_ne]
    exact ⟨hcls, hret⟩
  | undef u =>
    obtain rfl := eq_of_decodeWord_eq_undef h
    exact (exists_decodeWord_eq_undef_iff u).mp ⟨u, h⟩
  | _ => rfl

/-! ## Decode after encode -/

/-- R77: a SYS word decodes to SYS unless it is one of the two exact words. -/
theorem decodeWord_encode_sys {nnn : BitVec 12} (hcls : nnn ≠ 0x0E0) (hret : nnn ≠ 0x0EE) :
    decodeWord (packNNN 0x0 nnn) = .sys nnn := by
  have hnnn : ∀ c : BitVec 12, nnn ≠ c → packNNN 0x0 nnn ≠ packNNN 0x0 c := fun c hc h =>
    hc (by rw [← opNNN_packNNN 0x0 nnn, h, opNNN_packNNN])
  have hfamily : (packNNN 0x0 nnn).toNat < 0x1000 := by
    rw [packNNN_toNat]
    exact (Nat.zero_add _).trans_lt nnn.isLt
  rw [decodeWord_eq_sys hfamily (hnnn _ hcls) (hnnn _ hret), opNNN_packNNN]

/-- R78 to R80: a reserved word decodes to itself. -/
theorem decodeWord_of_isUndefWord {w : Word} (h : isUndefWord w = true) : decodeWord w = .undef w := by
  obtain ⟨u, hdecode⟩ := (exists_decodeWord_eq_undef_iff w).mpr h
  rwa [eq_of_decodeWord_eq_undef hdecode] at hdecode

/-- Every well-formed instruction is what its word decodes to: the packed fields are read back, and the family and the
selector among them pick its arm. -/
theorem decodeWord_encode {i : Instr} (h : i.wf = true) : decodeWord (encode i) = i := by
  cases i with
  | cls | ret => rfl
  | sys nnn =>
    simp only [Instr.wf, Bool.and_eq_true, bne_iff_ne] at h
    obtain ⟨hcls, hret⟩ := h
    exact decodeWord_encode_sys hcls hret
  | undef w => exact decodeWord_of_isUndefWord h
  | jp _ | call _ | ldI _ | jpV0 _ => simp [encode, decodeWord]
  | seImm _ _ | sneImm _ _ | ldImm _ _ | addImm _ _ | rnd _ _ => simp [encode, decodeWord]
  | seReg _ _ _ | sneReg _ _ _ | drw _ _ _ => simp [encode, decodeWord]
  | ldReg _ _ | or _ _ | and _ _ | xor _ _ | addReg _ _ | sub _ _ | shr _ _ | subn _ _ | shl _ _ =>
    simp [encode, decodeWord, decodeFamily8]
  | skp _ | sknp _ => simp [encode, decodeWord, decodeFamilyE]
  | ldVxDt _ | ldVxK _ | ldDtVx _ | ldStVx _ | addI _ | ldF _ | ldB _ | ldMemVx _ | ldVxMem _ =>
    simp [encode, decodeWord, decodeFamilyF]

/-! ## The round trips -/

/-- Settles O2: decoding an instruction's own bytes decodes its word, which is read back arm by arm. -/
theorem decodeInvertsEncode : Obligations.DecodeInvertsEncode := by
  unfold Obligations.DecodeInvertsEncode
  intro i rest hwf
  rw [encodeBytes, decode_bytesOfWord, decodeWord_encode hwf]

/-- Settles O3: each selector table keeps the fields it reads, and what it reads besides is fixed by the arm. -/
theorem encodeInvertsDecode : Obligations.EncodeInvertsDecode := by
  unfold Obligations.EncodeInvertsDecode
  exact fun w => ⟨wf_decodeWord w, encode_decodeWord w⟩

/-- Settles O1: each word is a closed term that decode evaluates. -/
theorem specWordsDecode : Obligations.SpecWordsDecode := by
  unfold Obligations.SpecWordsDecode
  decide

end Sys2Proof

/-! Proofs about how instructions and steps end (spec/60_exceptions.md section 6): a next state, except where the closed list
R208 has a condition, and there the list's fault. -/

namespace Sys2Proof.Machine

variable {s : State}

/-! ## Outcomes that end as a condition has it -/

/-- `o` is a next state where no reason is listed, and the fault with the listed reason where one is. -/
def EndsAs (listed : Option Fault) (o : Host.Outcome State Fault Refusal) : Prop :=
  (∀ f, listed = some f → o = .fault f) ∧ (listed = none → ∃ t, o = .next t)

theorem endsAs_next (t : State) : EndsAs none (.next t) := ⟨nofun, fun _ => ⟨t, rfl⟩⟩

/-- An outcome under a check ends as the check's negation has it. -/
theorem endsAs_guarded {out : Prop} {inside : Bool} [Decidable out] (h : inside = true ↔ ¬ out) (r : Fault) (t : State) :
    EndsAs (if out then some r else none) (if inside then .next t else .fault r) := by
  by_cases hout : out
  · rw [if_pos hout, if_neg (fun hin => h.mp hin hout)]
    exact ⟨fun f hf => congrArg _ (Option.some.inj hf), nofun⟩
  · rw [if_neg hout, if_pos (h.mpr hout)]
    exact endsAs_next t

/-! ## The closed list, condition by condition -/

theorem execDrw_endsAs (x y : Reg) (n : BitVec 4) : EndsAs (unspecified (.drw x y n) s) (execDrw x y n s) := by
  refine endsAs_guarded ?_ _ _
  rw [inMemory_iff, State.effectiveAddress]
  omega

/-- R51: a run of at least one byte from I is in range exactly where its last address is no more than 4095. -/
theorem inMemory_succ_iff (s : State) (last : Nat) :
    inMemory (s.effectiveAddress 0) (last + 1) = true ↔ ¬ 4095 < s.i.toNat + last := by
  rw [inMemory_iff, State.effectiveAddress]
  omega

/-- R172, R173: the key instructions answer exactly where VX is a key index. -/
theorem endsAs_keyOperand (b : Byte) (u : Key → State) :
    EndsAs (if 15 < b.toNat then some .keyIndexOutOfRange else none)
      (match keyOperand b with | some k => .next (u k) | none => .fault .keyIndexOutOfRange) := by
  rcases keyOperand_cases b with ⟨hout, hkey⟩ | ⟨k, hk, hkey⟩
  · rw [hkey, if_pos hout]
    exact ⟨fun f hf => congrArg _ (Option.some.inj hf), nofun⟩
  · have hin : ¬ 15 < b.toNat := by omega
    rw [hkey, if_neg hin]
    exact endsAs_next _

theorem execSkp_endsAs (x : Reg) : EndsAs (unspecified (.skp x) s) (execSkp x s) :=
  endsAs_keyOperand (s.reg x) fun k => (s.skipIf (s.key k)).autoRelease k true

theorem execSknp_endsAs (x : Reg) : EndsAs (unspecified (.sknp x) s) (execSknp x s) :=
  endsAs_keyOperand (s.reg x) fun k => (s.skipIf (!s.key k)).autoRelease k (s.key k)

/-- R208: of the 36 meanings six have a condition, and the others always answer. -/
theorem exec_endsAs (i : Instr) (s : State) : EndsAs (unspecified i s) (exec i s) := by
  cases i with
  | drw x y n => exact execDrw_endsAs x y n
  | ldB _ => exact endsAs_guarded (inMemory_succ_iff s 2) _ _
  | ldMemVx x | ldVxMem x => exact endsAs_guarded (inMemory_succ_iff s x.val) _ _
  | skp x => exact execSkp_endsAs x
  | sknp x => exact execSknp_endsAs x
  | _ => exact endsAs_next _

/-- R70: in range, a step is the meaning of the word at pc, on the advanced state. -/
theorem step_of_decode {i : Instr} (hpc : s.pc.toNat ≤ 0xFFE) (hdecode : decodeWord s.nextWord = i) :
    step s = exec i s.beginStep := by
  subst hdecode
  exact step_eq_exec s hpc

/-- A step that answers ran the instruction of the word at pc. -/
theorem exec_of_step {t : State} (h : step s = .next t) : exec (decodeWord s.nextWord) s.beginStep = .next t :=
  (step_next h).2

/-- The conditions of the list read I and registers alone, which the fetch leaves as they are. -/
theorem unspecified_beginStep (i : Instr) (s : State) : unspecified i s.beginStep = unspecified i s := by
  cases i <;> rfl

end Sys2Proof.Machine

namespace Sys2Proof

open Machine

/-- Settles O6: an instruction ends as its condition on the closed list has it. -/
theorem instructionsEndAsListed : Obligations.InstructionsEndAsListed := by
  unfold Obligations.InstructionsEndAsListed
  exact exec_endsAs

/-- Settles O7: a step out of range faults on the fetch; in range it ends as its instruction does on the advanced state. -/
theorem stepsEndAsListed : Obligations.StepsEndAsListed := by
  unfold Obligations.StepsEndAsListed
  intro s
  have hends : s.pc.toNat ≤ 0xFFE → EndsAs (unspecified (decodeWord s.nextWord) s) (step s) := fun hpc => by
    rw [step_of_decode hpc rfl, ← unspecified_beginStep]
    exact exec_endsAs _ _
  exact ⟨step_eq_fault s, fun hpc => (hends hpc).1, fun hpc => (hends hpc).2⟩

end Sys2Proof

/-! Proofs about write sets (spec/10_state.md R38): one rule per state operation says which pieces it writes, and the write
set of an instruction is those of the operations it is made of. -/

namespace Sys2Proof.Machine

/-! ## What is unchanged -/

/-- Every piece that is not listed is the same in `t` as in `s`. -/
def ChangesOnly (ps : List Piece) (s t : State) : Prop := ∀ p, p ∉ ps → p.Same s t

variable {s t u : State} {ps qs : List Piece}

theorem Piece.Same.refl (p : Piece) (s : State) : p.Same s s := by
  cases p <;> rfl

theorem Piece.Same.trans {p : Piece} (h : p.Same s t) (h' : p.Same t u) : p.Same s u := by
  cases p <;> exact Eq.trans h' h

theorem ChangesOnly.refl (ps : List Piece) (s : State) : ChangesOnly ps s s := fun p _ => Piece.Same.refl p s

theorem ChangesOnly.trans (h : ChangesOnly ps s t) (h' : ChangesOnly qs t u) : ChangesOnly (ps ++ qs) s u := fun p hp =>
  (h p fun hps => hp (List.mem_append_left _ hps)).trans (h' p fun hqs => hp (List.mem_append_right _ hqs))

theorem ChangesOnly.mono (h : ChangesOnly ps s t) (hsub : ps ⊆ qs) : ChangesOnly qs s t := fun p hp =>
  h p fun hps => hp (hsub hps)

/-- A claim about the state that an unconditional meaning answers. -/
theorem ChangesOnly.of_next (hu : ChangesOnly ps s u)
    (h : (.next u : Host.Outcome State Fault Refusal) = .next t) : ChangesOnly ps s t := by
  cases h; exact hu

/-! ## What each state operation writes -/

variable (s)

theorem State.setReg_changesOnly (r : Reg) (b : Byte) : ChangesOnly [.reg r] s (s.setReg r b) := fun p hp => by
  cases p with
  | reg q =>
    have hne : r ≠ q := fun e => hp (e ▸ List.mem_cons_self)
    exact (s.reg_setReg r q b).trans (if_neg hne)
  | _ => rfl

theorem State.setI_changesOnly (w : Word) : ChangesOnly [.index] s (s.setI w) := fun p hp => by
  cases p with
  | index => exact absurd List.mem_cons_self hp
  | _ => rfl

theorem State.setPc_changesOnly (w : Word) : ChangesOnly [.pc] s (s.setPc w) := fun p hp => by
  cases p with
  | pc => exact absurd List.mem_cons_self hp
  | _ => rfl

theorem State.setDT_changesOnly (b : Byte) : ChangesOnly [.delayTimer] s (s.setDT b) := fun p hp => by
  cases p with
  | delayTimer => exact absurd List.mem_cons_self hp
  | _ => rfl

theorem State.setST_changesOnly (b : Byte) : ChangesOnly [.soundTimer] s (s.setST b) := fun p hp => by
  cases p with
  | soundTimer => exact absurd List.mem_cons_self hp
  | _ => rfl

theorem State.setDisp_changesOnly (d : Display) : ChangesOnly [.frameBuffer] s (s.setDisp d) := fun p hp => by
  cases p with
  | frameBuffer => exact absurd List.mem_cons_self hp
  | _ => rfl

theorem State.report_changesOnly (r : Report) : ChangesOnly [.report] s (s.report r) := fun p hp => by
  cases p with
  | report => exact absurd List.mem_cons_self hp
  | _ => rfl

theorem State.consumeDraw_changesOnly : ChangesOnly [.draws] s s.consumeDraw := fun p hp => by
  cases p with
  | draws => exact absurd List.mem_cons_self hp
  | _ => rfl

theorem State.consumePressed_changesOnly : ChangesOnly [.lastPressed] s s.consumePressed := fun p hp => by
  cases p with
  | lastPressed => exact absurd List.mem_cons_self hp
  | _ => rfl

theorem State.consumeReleased_changesOnly : ChangesOnly [.lastReleased] s s.consumeReleased := fun p hp => by
  cases p with
  | lastReleased => exact absurd List.mem_cons_self hp
  | _ => rfl

theorem State.release_changesOnly (k : Key) : ChangesOnly [.key k, .lastReleased] s (s.release k) := fun p hp => by
  cases p with
  | key q =>
    have hne : k ≠ q := fun e => hp (e ▸ List.mem_cons_self)
    exact (s.key_release k q).trans (if_neg hne)
  | lastReleased => simp at hp
  | _ => rfl

theorem State.push_changesOnly (w : Word) : ChangesOnly [.stackEntry s.sp, .stackDepth] s (s.push w) := fun p hp => by
  cases p with
  | stackEntry j =>
    have hne : j ≠ s.sp := fun e => hp (e ▸ List.mem_cons_self)
    exact (s.stackEntry_push w j).trans (if_neg hne)
  | stackDepth => simp at hp
  | _ => rfl

/-- R101: a pop writes the entry that is no longer live, the depth and pc. -/
theorem State.pop_changesOnly {top : Word} {rest : List Word} (h : s.stack = top :: rest) :
    ChangesOnly [.stackEntry (s.sp - 1), .stackDepth, .pc] s { s with stack := rest, pc := top } := fun p hp => by
  cases p with
  | stackEntry j =>
    have hsp : s.sp - 1 = rest.length := by rw [State.sp, h]; rfl
    have hne : j ≠ rest.length := fun e => hp (hsp ▸ e ▸ List.mem_cons_self)
    exact ((State.stackEntry_of_pop (t := { s with stack := rest, pc := top }) h j).trans (if_neg hne)).symm
  | stackDepth => simp at hp
  | pc => simp at hp
  | _ => rfl

theorem State.storeBytes_changesOnly {bytes : List Byte} {count : Nat} (hlength : bytes.length = count) :
    ChangesOnly (storeWrites s count) s (s.storeBytes (s.effectiveAddress 0) bytes) := fun p hp => by
  cases p with
  | byte a =>
    refine State.byteAt_storeBytes_outside ?_
    by_contra hinside
    refine hp ((mem_storeWrites count _).mpr ⟨a, rfl, ?_⟩)
    rw [State.effectiveAddress] at hinside
    omega
  | _ => rfl

/-- A new register file, whatever it holds, changes the registers alone. -/
theorem State.withRegs_same {p : Piece} (hp : ∀ r, p ≠ .reg r) (v : Vector Byte 16) : p.Same s { s with v := v } := by
  cases p with
  | reg r => exact absurd rfl (hp r)
  | _ => rfl

theorem State.loadRegs_changesOnly (base : Nat) (x : Reg) :
    ChangesOnly (((List.finRange 16).filter (fun r => r ≤ x)).map Piece.reg) s (s.loadRegs base x) := fun p hp => by
  cases p with
  | reg q =>
    have hgt : ¬ q ≤ x := fun hle => hp (List.mem_map_of_mem (by simp [hle]))
    exact (s.reg_loadRegs base x q).trans (if_neg hgt)
  | _ => exact s.withRegs_same (fun _ => Piece.noConfusion) _

/-! ## What the shared operations with a condition write -/

theorem State.skipIf_changesOnly (taken : Bool) : ChangesOnly (skipWrites taken) s (s.skipIf taken) := by
  cases taken with
  | true => exact s.setPc_changesOnly _
  | false => exact .refl _ s

theorem State.autoRelease_changesOnly (k : Key) (condition : Bool) :
    ChangesOnly (releaseWrites k (s.cfg.autoRelease && condition)) s (s.autoRelease k condition) := by
  unfold State.autoRelease
  cases s.cfg.autoRelease && condition with
  | true => exact s.release_changesOnly k
  | false => exact .refl _ s

theorem State.callTo_changesOnly (nnn : BitVec 12) (target : Word) :
    ChangesOnly (writes s (.call nnn)) s (s.callTo target) := by
  unfold State.callTo writes
  by_cases hroom : s.sp < 16
  · rw [if_pos hroom, if_pos hroom]
    exact (s.push_changesOnly s.pc).trans ((s.push s.pc).setPc_changesOnly target)
  · rw [if_neg hroom, if_neg hroom]
    exact s.report_changesOnly _

theorem State.returnFromCall_changesOnly : ChangesOnly (writes s .ret) s s.returnFromCall := by
  rcases s.returnFromCall_cases with ⟨hnil, hret⟩ | ⟨top, rest, hcons, hret⟩
  · have hsp : s.sp = 0 := congrArg List.length hnil
    rw [hret, writes, if_pos hsp]
    exact s.report_changesOnly _
  · have hsp : s.sp ≠ 0 := by rw [State.sp, hcons]; exact Nat.succ_ne_zero _
    rw [hret, writes, if_neg hsp]
    exact s.pop_changesOnly hcons

/-! ## What each instruction writes -/

/-- Two register writes. -/
theorem State.setReg_setReg_changesOnly (x y : Reg) (a b : Byte) :
    ChangesOnly [.reg x, .reg y] s ((s.setReg x a).setReg y b) :=
  (s.setReg_changesOnly x a).trans ((s.setReg x a).setReg_changesOnly y b)

variable {s}

theorem execSkp_changesOnly {x : Reg} (h : execSkp x s = .next t) : ChangesOnly (writes s (.skp x)) s t := by
  obtain ⟨k, hk, rfl⟩ := (execSkp_next x).mp h
  simp only [writes, keyOperand_of_val hk]
  have hrelease := (s.skipIf (s.key k)).autoRelease_changesOnly k true
  rw [State.skipIf_cfg, Bool.and_true] at hrelease
  exact (s.skipIf_changesOnly _).trans hrelease

theorem execSknp_changesOnly {x : Reg} (h : execSknp x s = .next t) : ChangesOnly (writes s (.sknp x)) s t := by
  obtain ⟨k, hk, rfl⟩ := (execSknp_next x).mp h
  simp only [writes, keyOperand_of_val hk]
  have hrelease := (s.skipIf (!s.key k)).autoRelease_changesOnly k (s.key k)
  rw [State.skipIf_cfg] at hrelease
  exact (s.skipIf_changesOnly _).trans hrelease

theorem execLdVxK_changesOnly {x : Reg} (h : execLdVxK x s = .next t) : ChangesOnly (writes s (.ldVxK x)) s t := by
  rcases execLdVxK_cases x s with ⟨hmode, hlatch, hexec⟩ | ⟨k, hmode, hlatch, hexec⟩ | ⟨hmode, hlatch, hexec⟩ |
    ⟨k, hmode, hlatch, hexec⟩ <;> obtain rfl := Host.Outcome.next.inj (hexec.symm.trans h) <;>
    simp only [writes, hmode, hlatch]
  · exact s.setPc_changesOnly _
  · exact (s.setReg_changesOnly x _).trans (State.consumeReleased_changesOnly _)
  · exact s.setPc_changesOnly _
  · exact ((s.setReg_changesOnly x _).trans (State.consumePressed_changesOnly _)).trans (State.release_changesOnly _ k)

/-- R38: the write set of an instruction bounds what it changes. -/
theorem exec_changesOnly {i : Instr} (h : exec i s = .next t) : ChangesOnly (writes s i) s t := by
  cases i with
  | cls => exact (s.setDisp_changesOnly _).of_next h
  | ret => exact s.returnFromCall_changesOnly.of_next h
  | sys _ | undef _ => exact (ChangesOnly.refl _ s).of_next h
  | jp _ | jpV0 _ => exact (s.setPc_changesOnly _).of_next h
  | call nnn => exact (s.callTo_changesOnly nnn _).of_next h
  | seImm _ _ | sneImm _ _ | seReg _ _ _ | sneReg _ _ _ => exact (s.skipIf_changesOnly _).of_next h
  | ldImm x _ | addImm x _ | ldReg x _ | or x _ | and x _ | xor x _ | ldVxDt x =>
    exact (s.setReg_changesOnly x _).of_next h
  | addReg x y | sub x y | subn x y => exact (s.setReg_setReg_changesOnly x vf _ _).of_next h
  | shr x y | shl x y =>
    exact ((s.setReg_setReg_changesOnly vf x _ _).mono (List.Perm.swap _ _ _).subset).of_next h
  | ldI _ | addI _ | ldF _ => exact (s.setI_changesOnly _).of_next h
  | rnd x nn => exact ((s.setReg_changesOnly x _).trans (State.consumeDraw_changesOnly _)).of_next h
  | drw x y n =>
    obtain ⟨-, rfl⟩ := exec_drw_next.mp h
    exact (s.setDisp_changesOnly _).trans (State.setReg_changesOnly _ vf _)
  | skp x => exact execSkp_changesOnly h
  | sknp x => exact execSknp_changesOnly h
  | ldVxK x => exact execLdVxK_changesOnly h
  | ldDtVx x => exact (s.setDT_changesOnly _).of_next h
  | ldStVx x => exact (s.setST_changesOnly _).of_next h
  | ldB x =>
    obtain ⟨-, rfl⟩ := (execLdB_next x).mp h
    exact s.storeBytes_changesOnly rfl
  | ldMemVx x =>
    obtain ⟨-, rfl⟩ := (execLdMemVx_next x).mp h
    exact s.storeBytes_changesOnly (registersUpTo_length s x)
  | ldVxMem x =>
    obtain ⟨-, rfl⟩ := (execLdVxMem_next x).mp h
    exact s.loadRegs_changesOnly _ x

end Sys2Proof.Machine

namespace Sys2Proof

open Machine

/-- Settles O44: the operations an instruction is made of write within its write set. -/
theorem instructionsWriteOnlyTheirSet : Obligations.InstructionsWriteOnlyTheirSet := by
  unfold Obligations.InstructionsWriteOnlyTheirSet
  exact fun i s t p h hp => exec_changesOnly h p hp

end Sys2Proof

/-! Proofs about what holds between any two transactions (spec/10_state.md section 4): each operation of a meaning keeps the
invariant, so every step does; a load stays within its region, and a Reset starts from a state that has it. -/

namespace Sys2Proof.Machine

variable {s t : State}

/-! ## The invariant, operation by operation -/

/-- The invariant speaks of the configuration, memory, the stack, pc and the ROM size alone. -/
theorem State.Inv.of_same (hs : s.Inv) (hcfg : t.cfg = s.cfg) (hmem : t.mem = s.mem) (hstack : t.stack = s.stack)
    (hrom : t.romSize = s.romSize) (hpc : t.pc.toNat ≤ 0x10FE) : t.Inv where
  configuration := by rw [hcfg]; exact hs.configuration
  memory := by rw [State.boot_eq s t hcfg, hmem]; exact hs.memory
  stackDepth := by rw [State.sp, hstack]; exact hs.stackDepth
  returnAddresses := by rw [hstack]; exact hs.returnAddresses
  pcBound := hpc
  romFits := by rw [hcfg, hrom]; exact hs.romFits

theorem State.Inv.withRegs (hs : s.Inv) (v : Vector Byte 16) : { s with v := v }.Inv :=
  hs.of_same rfl rfl rfl rfl hs.pcBound

theorem State.Inv.setPc (hs : s.Inv) {w : Word} (hw : w.toNat ≤ 0x10FE) : (s.setPc w).Inv :=
  hs.of_same rfl rfl rfl rfl hw

theorem State.Inv.storeBytes (hs : s.Inv) {a : Nat} {bytes : List Byte} (hrange : a + bytes.length ≤ 4096) :
    (s.storeBytes a bytes).Inv where
  configuration := hs.configuration
  memory := s.wf_storeBytes a bytes hs.memory hrange
  stackDepth := hs.stackDepth
  returnAddresses := hs.returnAddresses
  pcBound := hs.pcBound
  romFits := hs.romFits

theorem State.Inv.autoRelease (hs : s.Inv) (k : Key) (condition : Bool) : (s.autoRelease k condition).Inv :=
  hs.of_same (s.autoRelease_cfg k _) (s.autoRelease_mem k _) (s.autoRelease_stack k _) (s.autoRelease_romSize k _)
    (by rw [State.autoRelease_pc]; exact hs.pcBound)

/-- R23: a jump with offset reaches 0xFFF + 0xFF at most. -/
theorem offsetTarget_toNat (nnn : BitVec 12) (v0 : Byte) : (offsetTarget nnn v0).toNat = nnn.toNat + v0.toNat := by
  rw [offsetTarget, BitVec.toNat_add, addressOperand_toNat, zext16_toNat]
  omega

section

variable (hs : s.Inv) (hhigh : s.pc.toNat ≤ 0x1000)
include hs hhigh

theorem State.Inv.skipIf (taken : Bool) : (s.skipIf taken).Inv := by
  refine hs.of_same (s.skipIf_cfg _) (s.skipIf_mem _) (s.skipIf_stack _) (s.skipIf_romSize _) ?_
  rw [State.skipIf_pc_toNat]
  split <;> omega

/-- R103: a CALL pushes an advanced pc, and only where an entry is free. -/
theorem State.Inv.callTo {target : Word} (htarget : target.toNat ≤ 0x10FE) : (s.callTo target).Inv := by
  rcases s.callTo_cases target with ⟨hroom, hcall⟩ | ⟨-, hcall⟩ <;> rw [hcall]
  · exact { hs with
      stackDepth := hroom
      returnAddresses := List.forall_mem_cons.mpr ⟨hhigh, hs.returnAddresses⟩
      pcBound := htarget }
  · exact hs.of_same rfl rfl rfl rfl hs.pcBound

end

/-- R101: a RET goes to an address that a CALL pushed. -/
theorem State.Inv.returnFromCall (hs : s.Inv) : s.returnFromCall.Inv := by
  rcases s.returnFromCall_cases with ⟨-, hret⟩ | ⟨top, rest, hcons, hret⟩ <;> rw [hret]
  · exact hs.of_same rfl rfl rfl rfl hs.pcBound
  · have hdepth : rest.length + 1 ≤ 16 := by have := hs.stackDepth; rwa [State.sp, hcons] at this
    obtain ⟨htop, hrest⟩ := List.forall_mem_cons.mp (hcons ▸ hs.returnAddresses)
    exact { hs with
      stackDepth := Nat.le_of_succ_le hdepth
      returnAddresses := hrest
      pcBound := htop.trans (by decide) }

/-- R174: the rewind undoes the advance. -/
theorem State.Inv.rewind (hs : s.Inv) (hlow : 2 ≤ s.pc.toNat) : s.rewind.Inv := by
  refine hs.setPc ?_
  have hpc := hs.pcBound
  bv_omega

/-! ## The invariant, transaction by transaction -/

/-- Every instruction keeps the invariant, on a pc that a fetch has advanced. -/
theorem exec_inv {i : Instr} (hs : s.Inv) (hlow : 2 ≤ s.pc.toNat) (hhigh : s.pc.toNat ≤ 0x1000)
    (h : exec i s = .next t) : t.Inv := by
  cases i with
  | jp nnn =>
    cases h
    refine hs.setPc ?_
    rw [addressOperand_toNat]
    omega
  | jpV0 nnn =>
    cases h
    refine hs.setPc ?_
    rw [offsetTarget_toNat]
    omega
  | call nnn =>
    cases h
    refine hs.callTo hhigh ?_
    rw [addressOperand_toNat]
    omega
  | ret => cases h; exact hs.returnFromCall
  | seImm _ _ | sneImm _ _ | seReg _ _ _ | sneReg _ _ _ => cases h; exact hs.skipIf hhigh _
  | skp x =>
    obtain ⟨k, -, rfl⟩ := (execSkp_next x).mp h
    exact (hs.skipIf hhigh _).autoRelease k _
  | sknp x =>
    obtain ⟨k, -, rfl⟩ := (execSknp_next x).mp h
    exact (hs.skipIf hhigh _).autoRelease k _
  | ldVxK x =>
    rcases execLdVxK_cases x s with ⟨-, -, hexec⟩ | ⟨k, -, -, hexec⟩ | ⟨-, -, hexec⟩ | ⟨k, -, -, hexec⟩ <;>
      obtain rfl := Host.Outcome.next.inj (hexec.symm.trans h)
    · exact hs.rewind hlow
    · exact hs.of_same rfl rfl rfl rfl hs.pcBound
    · exact hs.rewind hlow
    · exact hs.of_same rfl rfl rfl rfl hs.pcBound
  | ldB x =>
    obtain ⟨hrange, rfl⟩ := (execLdB_next x).mp h
    refine hs.storeBytes ?_
    rw [State.effectiveAddress, show (decimalDigits (s.reg x)).length = 3 from rfl]
    omega
  | ldMemVx x =>
    obtain ⟨hrange, rfl⟩ := (execLdMemVx_next x).mp h
    refine hs.storeBytes ?_
    rw [State.effectiveAddress, registersUpTo_length]
    omega
  | ldVxMem x =>
    obtain ⟨-, rfl⟩ := (execLdVxMem_next x).mp h
    exact hs.withRegs _
  | drw x y n =>
    obtain ⟨-, rfl⟩ := exec_drw_next.mp h
    exact hs.of_same rfl rfl rfl rfl hs.pcBound
  | _ => cases h; exact hs.of_same rfl rfl rfl rfl hs.pcBound

theorem step_inv (hs : s.Inv) (h : step s = .next t) : t.Inv := by
  obtain ⟨hpc, hexec⟩ := step_next h
  have hadvanced := beginStep_pc_toNat s hpc
  have hbegin : s.beginStep.Inv := hs.of_same rfl rfl rfl rfl (by omega)
  exact exec_inv hbegin (by omega) (by omega) hexec

/-- R170, R171: a key event changes keys and latches alone. -/
theorem State.Inv.keyPress (hs : s.Inv) (k : Byte) : (s.keyPress k).Inv := by
  unfold State.keyPress
  split
  · exact hs.of_same rfl rfl rfl rfl hs.pcBound
  · exact hs

theorem State.Inv.keyRelease (hs : s.Inv) (k : Byte) : (s.keyRelease k).Inv := by
  unfold State.keyRelease
  split
  · exact hs.of_same rfl rfl rfl rfl hs.pcBound
  · exact hs

theorem Config.valid_iff (c : Config) : c.valid = true ↔ c.romStart.toNat ≤ 3744 ∧ c.fontStart.toNat + 80 ≤ 4096 := by
  simp only [Config.valid, Bool.and_eq_true, decide_eq_true_eq]

/-- R236: the font region lies within memory. -/
theorem State.Inv.loadFontBytes (hs : s.Inv) (bytes : List Byte) : (s.loadFontBytes bytes).2.Inv := by
  by_cases hlength : bytes.length = 80
  · rw [State.loadFontBytes_of_length_eq hlength]
    refine hs.storeBytes ?_
    rw [hlength]
    exact ((Config.valid_iff _).mp hs.configuration).2
  · rw [State.loadFontBytes_of_length_ne hlength]
    exact hs

/-- R237: a ROM that fits ends below the reserved bytes. -/
theorem State.Inv.loadRomBytes (hs : s.Inv) (bytes : List Byte) : (s.loadRomBytes bytes).2.Inv := by
  by_cases hfits : bytes.length ≤ romCapacity s.cfg
  · obtain ⟨hstart, -⟩ := (Config.valid_iff _).mp hs.configuration
    have hend : s.cfg.romStart.toNat + bytes.length ≤ 3744 := by rw [romCapacity] at hfits; omega
    rw [State.loadRomBytes_of_le hfits]
    exact { hs.storeBytes (hend.trans (by decide)) with romFits := hend }
  · rw [State.loadRomBytes_of_lt (Nat.not_le.mp hfits)]
    exact hs

/-- R230: memory at Reset lists nothing, and pc is `ROM_START`. -/
theorem State.resetWith_inv {c : Config} (hc : c.valid = true) : (State.resetWith c).Inv where
  configuration := hc
  memory := Memory.wf_nil _
  stackDepth := Nat.zero_le _
  returnAddresses := nofun
  pcBound := by
    have hpc : (State.resetWith c).pc.toNat = c.romStart.toNat := addressOperand_toNat c.romStart
    omega
  romFits := ((Config.valid_iff c).mp hc).1

theorem perform_inv {e : Transaction} (hs : s.Inv) (h : perform e s = .next t) : t.Inv := by
  cases e with
  | step => exact step_inv hs h
  | tick => cases h; exact hs.of_same rfl rfl rfl rfl hs.pcBound
  | keyPress k => cases h; exact hs.keyPress k
  | keyRelease k => cases h; exact hs.keyRelease k
  | displayRead => cases h; exact hs
  | loadFont bytes =>
    rw [perform, loadFont] at h
    split at h
    · cases h
    · cases h; exact hs.loadFontBytes bytes
  | loadRom bytes =>
    rw [perform, loadRom] at h
    split at h
    · cases h
    · cases h; exact hs.loadRomBytes bytes
  | reset c =>
    obtain ⟨hvalid, rfl⟩ := guarded_next.mp h
    have hreset := State.resetWith_inv hvalid
    exact hreset.of_same rfl rfl rfl rfl hreset.pcBound

/-- What a Reset establishes and every transaction keeps holds whatever the host does. -/
theorem Reachable.inv (hs : Reachable s) : s.Inv := by
  induction hs with
  | start c hvalid => exact State.resetWith_inv hvalid
  | next s t e _ h ih => exact perform_inv ih h

end Sys2Proof.Machine

namespace Sys2Proof

open Machine

/-- Settles O47: the invariant's rule for the transaction, which for a step is that of its instruction. -/
theorem transactionsKeepInvariant : Obligations.TransactionsKeepInvariant := by
  unfold Obligations.TransactionsKeepInvariant
  exact fun e s t hs h => perform_inv hs h

/-- Settles O48: the reset values meet each clause of the invariant. -/
theorem resetHasInvariant : Obligations.ResetHasInvariant := by
  unfold Obligations.ResetHasInvariant
  exact fun c hc => State.resetWith_inv hc

/-- Settles O49: by induction on how the state is reached, with O48's rule at the start and O47's at each transaction. -/
theorem reachableStatesHaveInvariant : Obligations.ReachableStatesHaveInvariant := by
  unfold Obligations.ReachableStatesHaveInvariant
  exact fun s hs => hs.inv

end Sys2Proof

/-! Proofs about the pieces that few instructions write: which rows of the write-set table (spec/10_state.md R38) list memory,
the report, a latch or what the host sets, and so what a step can have done where one of these differs after it. -/

namespace Sys2Proof.Machine

variable {s t : State} {i : Instr} {p : Piece} {x : Reg} {a : Nat}

/-! ## Which instructions list a piece -/

/-- R38 read by its columns: the condition under which an instruction may list the piece, for the pieces that few list. -/
def Piece.WrittenBy (i : Instr) (s : State) : Piece → Prop
  | .byte a => ∃ x, (i = .ldB x ∧ s.i.toNat ≤ a ∧ a ≤ s.i.toNat + 2) ∨
      (i = .ldMemVx x ∧ s.i.toNat ≤ a ∧ a ≤ s.i.toNat + x.val)
  | .report => ((∃ nnn, i = .call nnn) ∧ 16 ≤ s.sp) ∨ (i = .ret ∧ s.sp = 0)
  | .lastPressed => s.cfg.autoRelease = true ∧ ∃ x, i = .ldVxK x
  | .lastReleased => ∃ x, i = .skp x ∨ i = .sknp x ∨ i = .ldVxK x
  | .configuration | .romSize | .started => False
  | _ => True

theorem writtenBy_of_mem_skipWrites {taken : Bool} (h : p ∈ skipWrites taken) : p.WrittenBy i s := by
  obtain ⟨-, rfl⟩ := (mem_skipWrites taken p).mp h
  trivial

theorem writtenBy_of_mem_releaseWrites {k : Key} {released : Bool} (h : p ∈ releaseWrites k released)
    (hi : ∃ x, i = .skp x ∨ i = .sknp x ∨ i = .ldVxK x) : p.WrittenBy i s := by
  obtain ⟨-, rfl | rfl⟩ := (mem_releaseWrites k released p).mp h
  · trivial
  · exact hi

theorem writtenBy_of_mem_writes_ldVxK {x : Reg} (h : p ∈ writes s (.ldVxK x)) : p.WrittenBy (.ldVxK x) s := by
  simp only [writes] at h
  split at h
  next => simp only [List.mem_singleton] at h; subst h; trivial
  next =>
    simp only [List.mem_cons, List.not_mem_nil, or_false] at h
    obtain rfl | rfl := h
    · trivial
    · exact ⟨x, .inr (.inr rfl)⟩
  next => simp only [List.mem_singleton] at h; subst h; trivial
  next hauto _ =>
    rcases List.mem_append.mp h with h | h
    · simp only [List.mem_cons, List.not_mem_nil, or_false] at h
      obtain rfl | rfl := h
      · trivial
      · exact ⟨hauto, x, rfl⟩
    · exact writtenBy_of_mem_releaseWrites h ⟨x, .inr (.inr rfl)⟩

/-- R38, row by row. -/
theorem writtenBy_of_mem_writes (h : p ∈ writes s i) : p.WrittenBy i s := by
  cases i with
  | ret =>
    rw [writes] at h
    split at h <;> simp only [List.mem_cons, List.not_mem_nil, or_false] at h
    next hempty => subst h; exact .inr ⟨rfl, hempty⟩
    next => obtain rfl | rfl | rfl := h <;> trivial
  | call nnn =>
    rw [writes] at h
    split at h <;> simp only [List.mem_cons, List.not_mem_nil, or_false] at h
    next => obtain rfl | rfl | rfl := h <;> trivial
    next hfull => subst h; exact .inl ⟨⟨nnn, rfl⟩, Nat.not_lt.mp hfull⟩
  | seImm _ _ | sneImm _ _ | seReg _ _ _ | sneReg _ _ _ => exact writtenBy_of_mem_skipWrites h
  | skp x =>
    rw [writes] at h
    split at h
    next =>
      exact (List.mem_append.mp h).elim writtenBy_of_mem_skipWrites
        (writtenBy_of_mem_releaseWrites · ⟨x, .inl rfl⟩)
    next => cases h
  | sknp x =>
    rw [writes] at h
    split at h
    next =>
      exact (List.mem_append.mp h).elim writtenBy_of_mem_skipWrites
        (writtenBy_of_mem_releaseWrites · ⟨x, .inr (.inl rfl)⟩)
    next => cases h
  | ldVxK x => exact writtenBy_of_mem_writes_ldVxK h
  | ldB x =>
    obtain ⟨a, rfl, hlow, hhigh⟩ := (mem_storeWrites 3 p).mp h
    exact ⟨x, .inl ⟨rfl, hlow, Nat.le_of_lt_succ hhigh⟩⟩
  | ldMemVx x =>
    obtain ⟨a, rfl, hlow, hhigh⟩ := (mem_storeWrites (x.val + 1) p).mp h
    exact ⟨x, .inr ⟨rfl, hlow, Nat.le_of_lt_succ hhigh⟩⟩
  | ldVxMem x =>
    obtain ⟨r, -, rfl⟩ := List.mem_map.mp h
    trivial
  | addReg _ _ | sub _ _ | shr _ _ | subn _ _ | shl _ _ | rnd _ _ | drw _ _ _ =>
    simp only [writes, List.mem_cons, List.not_mem_nil, or_false] at h
    obtain rfl | rfl := h <;> trivial
  | sys _ | undef _ => cases h
  | _ => obtain rfl := List.mem_singleton.mp h; trivial

/-! ## What differs after an instruction, and after a step -/

/-- A piece that differs after an instruction is one it may write. -/
theorem exec_writtenBy (h : exec i s = .next t) (hp : ¬ p.Same s t) : p.WrittenBy i s :=
  writtenBy_of_mem_writes (by_contra fun hw => hp (exec_changesOnly h p hw))

theorem beginStep_changesOnly (s : State) : ChangesOnly [.pc, .report, .started] s s.beginStep := fun p hp => by
  cases p with
  | pc | report | started => simp at hp
  | _ => rfl

/-- The conditions read nothing that the fetch writes. -/
theorem writtenBy_beginStep : p.WrittenBy i s.beginStep ↔ p.WrittenBy i s := by
  cases p <;> rfl

/-- A piece that differs after a step, other than those the fetch sets, is one its instruction may write. -/
theorem step_writtenBy (h : step s = .next t) (hfetch : p ∉ [.pc, .report, .started]) (hp : ¬ p.Same s t) :
    p.WrittenBy (decodeWord s.nextWord) s := by
  have hexec : ¬ p.Same s.beginStep t := fun hsame => hp ((beginStep_changesOnly s p hfetch).trans hsame)
  exact writtenBy_beginStep.mp (exec_writtenBy (exec_of_step h) hexec)

/-- R238: a step begins the run. -/
theorem step_started (h : step s = .next t) : t.started = true :=
  by_contra fun hne => exec_writtenBy (p := .started) (exec_of_step h) hne

/-! ## The report of an instruction -/

/-- R202: an instruction reports one of the two stack errors, or leaves the report as it is. -/
theorem exec_report_cases (h : exec i s = .next t) :
    ((∃ nnn, i = .call nnn) ∧ 16 ≤ s.sp ∧ t.reportOut = .stackOverflow) ∨
    (i = .ret ∧ s.sp = 0 ∧ t.reportOut = .stackUnderflow) ∨
    (¬ Piece.report.WrittenBy i s ∧ t.reportOut = s.reportOut) := by
  by_cases hw : Piece.report.WrittenBy i s
  · obtain ⟨⟨nnn, rfl⟩, hfull⟩ | ⟨rfl, hempty⟩ := hw
    · obtain rfl := Host.Outcome.next.inj h
      rcases s.callTo_cases (addressOperand nnn) with ⟨hroom, -⟩ | ⟨-, hcall⟩
      · omega
      · exact .inl ⟨⟨nnn, rfl⟩, hfull, congrArg State.reportOut hcall⟩
    · obtain rfl := Host.Outcome.next.inj h
      rcases s.returnFromCall_cases with ⟨-, hret⟩ | ⟨top, rest, hcons, -⟩
      · exact .inr (.inl ⟨rfl, hempty, congrArg State.reportOut hret⟩)
      · rw [State.sp, hcons] at hempty; cases hempty
  · exact .inr (.inr ⟨hw, by_contra fun hne => hw (exec_writtenBy h hne)⟩)

/-! ## The release latch of an instruction -/

theorem State.autoRelease_lastReleased_cases (s : State) (k : Key) (condition : Bool) :
    (s.autoRelease k condition).lastReleased = s.lastReleased ∨ (s.autoRelease k condition).lastReleased = some k := by
  rw [State.autoRelease_lastReleased]
  split
  · exact .inr rfl
  · exact .inl rfl

/-- R175: a release latch that differs holds a key that the instruction released, or was consumed by FX0A in normal mode. -/
theorem exec_lastReleased_cases (h : exec i s = .next t) :
    t.lastReleased = s.lastReleased ∨ (∃ k, t.lastReleased = some k) ∨
      (s.cfg.autoRelease = false ∧ ∃ x, i = .ldVxK x) := by
  by_cases hsame : t.lastReleased = s.lastReleased
  · exact .inl hsame
  obtain ⟨x, rfl | rfl | rfl⟩ := exec_writtenBy (p := .lastReleased) h hsame
  · obtain ⟨k, -, rfl⟩ := (execSkp_next x).mp h
    exact ((s.skipIf _).autoRelease_lastReleased_cases k _).imp (·.trans (s.skipIf_lastReleased _)) (.inl ⟨k, ·⟩)
  · obtain ⟨k, -, rfl⟩ := (execSknp_next x).mp h
    exact ((s.skipIf _).autoRelease_lastReleased_cases k _).imp (·.trans (s.skipIf_lastReleased _)) (.inl ⟨k, ·⟩)
  · rcases execLdVxK_cases x s with ⟨hmode, -, -⟩ | ⟨k, hmode, -, -⟩ | ⟨-, -, hexec⟩ | ⟨k, -, -, hexec⟩
    · exact .inr (.inr ⟨hmode, x, rfl⟩)
    · exact .inr (.inr ⟨hmode, x, rfl⟩)
    · obtain rfl := Host.Outcome.next.inj (hexec.symm.trans h)
      exact .inl rfl
    · obtain rfl := Host.Outcome.next.inj (hexec.symm.trans h)
      exact .inr (.inl ⟨k, rfl⟩)

end Sys2Proof.Machine

namespace Sys2Proof

open Machine

/-- Settles O10: the report starts at NoError, and of the cases of the instruction's report the word and the depth pick one. -/
theorem reportsAreTheStackErrors : Obligations.ReportsAreTheStackErrors := by
  unfold Obligations.ReportsAreTheStackErrors
  intro s t hsp h
  rcases exec_report_cases (exec_of_step h) with ⟨hcall, hfull, hreport⟩ | ⟨hret, hempty, hreport⟩ | ⟨hnone, hreport⟩
  · have hdepth : s.sp = 16 := le_antisymm hsp hfull
    obtain ⟨nnn, hcall⟩ := hcall
    simp [hreport, hcall, hdepth]
  · have hdepth : s.sp = 0 := hempty
    simp [hreport, hret, hdepth]
  · have hneither : ¬ Piece.report.WrittenBy (decodeWord s.nextWord) s := mt writtenBy_beginStep.mpr hnone
    obtain ⟨hcall, hret⟩ := not_or.mp hneither
    rw [hreport, State.beginStep_reportOut]
    exact ⟨iff_of_false nofun fun ⟨hi, hdepth⟩ => hcall ⟨hi, hdepth.ge⟩, iff_of_false nofun hret⟩

/-- Settles O29: the bytes a step may write are those of the write-set table, which only two instructions list. -/
theorem onlyStoresWriteMemory : Obligations.OnlyStoresWriteMemory := by
  unfold Obligations.OnlyStoresWriteMemory
  exact fun s t a h hne => step_writtenBy (p := .byte a) h (by simp) hne

/-- Settles O38: the write-set table lists the press latch for FX0A alone; the release latch is emptied by no other listed
instruction. -/
theorem onlyKeyWaitClearsLatches : Obligations.OnlyKeyWaitClearsLatches := by
  unfold Obligations.OnlyKeyWaitClearsLatches
  intro s t h
  refine ⟨fun hsome hnone => ?_, fun hsome hnone => ?_⟩
  · exact step_writtenBy (p := .lastPressed) h (by simp) fun hsame => hsome (hsame.symm.trans hnone)
  · rcases exec_lastReleased_cases (exec_of_step h) with hsame | ⟨k, hk⟩ | hwait
    · exact absurd (hsame.symm.trans hnone) hsome
    · exact absurd (hk.symm.trans hnone) nofun
    · exact hwait

end Sys2Proof

/-! Proofs about the keypad instructions (spec/44_keypad.md): a key event writes one flag and one latch, EX9E and EXA1 are a
skip and a release, FX0A waits on the latch of its mode. -/

namespace Sys2Proof.Machine

variable {s t : State} {x : Reg} {k : Key}

/-! ## A key's flag and its latch -/

theorem State.key_release_self (s : State) (k : Key) : (s.release k).key k = false := by
  rw [State.key_release, if_pos rfl]

theorem State.key_release_other (s : State) {k q : Key} (h : q ≠ k) : (s.release k).key q = s.key q := by
  rw [State.key_release, if_neg h.symm]

theorem State.key_press_self (s : State) (k : Key) : (s.press k).key k = true := by
  rw [State.key_press, if_pos rfl]

theorem State.key_press_other (s : State) {k q : Key} (h : q ≠ k) : (s.press k).key q = s.key q := by
  rw [State.key_press, if_neg h.symm]

theorem keyOperand_of_lt {b : Byte} (h : 15 < b.toNat) : keyOperand b = none :=
  dif_neg (by omega)

/-! ## The meanings behind `exec`, case by case -/

theorem exec_skp (h : (s.reg x).toNat = k.val) :
    exec (.skp x) s = .next ((s.skipIf (s.key k)).autoRelease k true) :=
  (execSkp_next x).mpr ⟨k, h, rfl⟩

theorem exec_sknp (h : (s.reg x).toNat = k.val) :
    exec (.sknp x) s = .next ((s.skipIf (!s.key k)).autoRelease k (s.key k)) :=
  (execSknp_next x).mpr ⟨k, h, rfl⟩

theorem exec_skp_of_lt (h : 15 < (s.reg x).toNat) : exec (.skp x) s = .fault .keyIndexOutOfRange :=
  (exec_endsAs (.skp x) s).1 _ (if_pos h)

theorem exec_sknp_of_lt (h : 15 < (s.reg x).toNat) :
    exec (.sknp x) s = .fault .keyIndexOutOfRange :=
  (exec_endsAs (.sknp x) s).1 _ (if_pos h)

/-- R172, R173: a skip whose key is not released writes pc alone. -/
theorem State.skipIf_autoRelease_kept {condition : Bool} (h : s.cfg.autoRelease = false ∨ condition = false)
    (taken : Bool) : { (s.skipIf taken).autoRelease k condition with pc := s.pc } = s := by
  have hkept : ((s.skipIf taken).cfg.autoRelease && condition) = false := by
    rw [State.skipIf_cfg]
    exact (Bool.and_eq_false_iff ..).mpr h
  rw [State.autoRelease, hkept]
  exact s.skipIf_frame taken

/-- R172, R173: a skip whose key is released writes pc, the key's flag and the release latch. -/
theorem State.skipIf_autoRelease_released {condition : Bool} (hmode : s.cfg.autoRelease = true)
    (hcondition : condition = true) (taken : Bool) {t : State} (ht : t = (s.skipIf taken).autoRelease k condition) :
    t.key k = false ∧ (∀ q, q ≠ k → t.key q = s.key q) ∧ t.lastReleased = some k ∧
      { t with pc := s.pc, keys := s.keys, lastReleased := s.lastReleased } = s := by
  rw [State.autoRelease, State.skipIf_cfg, hmode, hcondition] at ht
  change t = (s.skipIf taken).release k at ht
  subst ht
  refine ⟨State.key_release_self _ k, fun q hq => ?_, rfl, by cases taken <;> rfl⟩
  rw [State.key_release_other _ hq, State.key, State.key]
  simp only [State.skipIf_keys]

/-- R174: without its event FX0A rewinds pc onto itself. -/
theorem exec_ldVxK_of_none (h : (if s.cfg.autoRelease then s.lastPressed else s.lastReleased) = none) :
    exec (.ldVxK x) s = .next s.rewind := by
  rcases execLdVxK_cases x s with ⟨-, -, hexec⟩ | ⟨k, hmode, hlatch, -⟩ | ⟨-, -, hexec⟩ | ⟨k, hmode, hlatch, -⟩
  · exact hexec
  · simp [hmode, hlatch] at h
  · exact hexec
  · simp [hmode, hlatch] at h

theorem exec_ldVxK_of_released (hmode : s.cfg.autoRelease = false) (hlatch : s.lastReleased = some k) :
    exec (.ldVxK x) s = .next (s.setReg x (keyValue k)).consumeReleased := by
  change execLdVxK x s = _
  simp only [execLdVxK, State.awaitRelease, hmode, hlatch, Bool.false_eq_true, if_false]

theorem exec_ldVxK_of_pressed (hmode : s.cfg.autoRelease = true) (hlatch : s.lastPressed = some k) :
    exec (.ldVxK x) s = .next ((s.setReg x (keyValue k)).release k).consumePressed := by
  change execLdVxK x s = _
  simp only [execLdVxK, State.awaitPress, hmode, hlatch, if_true]

end Sys2Proof.Machine

namespace Sys2Proof

open Machine

/-- Settles O35: where VX is a key the instruction is a skip and then the release, which the mode and the condition decide. -/
theorem skipsOnKey : Obligations.SkipsOnKey := by
  unfold Obligations.SkipsOnKey
  intro x k s hk
  refine ⟨⟨_, exec_skp hk, ?_, fun hmode => State.skipIf_autoRelease_kept (.inl hmode) _,
      fun hmode => State.skipIf_autoRelease_released hmode rfl _ rfl⟩,
    ⟨_, exec_sknp hk, ?_, fun hkept => State.skipIf_autoRelease_kept hkept _,
      fun ⟨hmode, hdown⟩ => State.skipIf_autoRelease_released hmode hdown _ rfl⟩⟩
  · rw [State.autoRelease_pc, State.skipIf_pc_toNat]
  · rw [State.autoRelease_pc, State.skipIf_pc_toNat]
    cases s.key k <;> rfl

/-- Settles O36: each mode's event is one case of FX0A, whose writes are read back piece by piece. -/
theorem keyWaitTakesEvent : Obligations.KeyWaitTakesEvent := by
  unfold Obligations.KeyWaitTakesEvent
  intro x k s
  have hvalue : ((s.setReg x (keyValue k)).reg x).toNat = k.val := by rw [State.reg_setReg_self, keyValue_toNat]
  have hother : ∀ r, r ≠ x → (s.setReg x (keyValue k)).reg r = s.reg r := fun r hr => by
    rw [State.reg_setReg, if_neg hr.symm]
  refine ⟨fun hmode hlatch => ⟨_, exec_ldVxK_of_released hmode hlatch, hvalue, hother, rfl, rfl⟩,
    fun hmode hlatch => ⟨_, exec_ldVxK_of_pressed hmode hlatch, hvalue, hother, rfl, rfl, ?_, fun q hq => ?_, rfl⟩⟩
  · exact State.key_release_self _ k
  · exact State.key_release_other _ hq

/-- Settles O37: a blocked FX0A takes the advance of pc back. -/
theorem blockedKeyWaitHoldsState : Obligations.BlockedKeyWaitHoldsState := by
  unfold Obligations.BlockedKeyWaitHoldsState
  intro x s hpc hdecode hlatch
  have hrewind : s.pc + 2 - 2 = s.pc := by bv_omega
  have hexec : exec (.ldVxK x) s.beginStep = .next s.beginStep.rewind := exec_ldVxK_of_none hlatch
  rw [step_of_decode hpc hdecode, hexec, State.rewind, State.beginStep_pc, hrewind]
  rfl

/-- Settles O40: a byte that is a key is one press or release of it, and a byte above 15 is none. -/
theorem keyEventsSetFlagAndLatch : Obligations.KeyEventsSetFlagAndLatch := by
  unfold Obligations.KeyEventsSetFlagAndLatch
  intro b s
  refine ⟨fun k hk => ⟨⟨s.press k, ?_, s.key_press_self k, fun q hq => s.key_press_other hq, rfl, rfl⟩,
    ⟨s.release k, ?_, s.key_release_self k, fun q hq => s.key_release_other hq, rfl, rfl⟩⟩, fun hb => ⟨?_, ?_⟩⟩
  · rw [perform, State.keyPress, keyOperand_of_val hk]
  · rw [perform, State.keyRelease, keyOperand_of_val hk]
  · rw [perform, State.keyPress, keyOperand_of_lt hb]
  · rw [perform, State.keyRelease, keyOperand_of_lt hb]

end Sys2Proof

/-! Proofs about what steps do not read: the sound timer (R187), the latch of the other mode (spec/44_keypad.md R175) and the
report of an earlier step (R203). From a state that differs in such a piece alone a step answers as before, but for the piece,
which it carries on or overwrites. -/

namespace Sys2Proof.Machine

/-! ## States that differ in the sound timer and the latches -/

/-- The state with its sound timer and its latches changed. -/
def State.mapUnread (fs : Byte → Byte) (fp fr : Option Key → Option Key) (s : State) : State :=
  { s with st := fs s.st, lastPressed := fp s.lastPressed, lastReleased := fr s.lastReleased }

/-- An outcome with its next state, if it has one, changed by `g`. -/
def mapNext (g : State → State) : Host.Outcome State Fault Refusal → Host.Outcome State Fault Refusal
  | .next t => .next (g t)
  | .fault r => .fault r
  | .refused r => .refused r

theorem mapNext_guarded (g : State → State) (inside : Prop) [Decidable inside] (t : State) (f : Fault) :
    mapNext g (if inside then .next t else .fault f) = if inside then .next (g t) else .fault f := by
  split <;> rfl

/-- `o'` is `o` but that its next state carries the changes on; ST and the release latch may also have been overwritten, with
the same value in both. -/
def AlikeButUnread (fs : Byte → Byte) (fp fr : Option Key → Option Key)
    (o' o : Host.Outcome State Fault Refusal) : Prop :=
  ∃ fs' fr', (fs' = id ∨ fs' = fs) ∧ (fr' = id ∨ fr' = fr) ∧ o' = mapNext (State.mapUnread fs' fp fr') o

variable {fs : Byte → Byte} {fp fr : Option Key → Option Key} {o' o : Host.Outcome State Fault Refusal} (s : State)

theorem alikeButUnread_of_carried (h : o' = mapNext (State.mapUnread fs fp fr) o) : AlikeButUnread fs fp fr o' o :=
  ⟨fs, fr, .inr rfl, .inr rfl, h⟩

/-! ## The shared operations on such states -/

theorem State.skipIf_mapUnread (taken : Bool) :
    (s.mapUnread fs fp fr).skipIf taken = (s.skipIf taken).mapUnread fs fp fr := by
  cases taken <;> rfl

theorem State.callTo_mapUnread (target : Word) :
    (s.mapUnread fs fp fr).callTo target = (s.callTo target).mapUnread fs fp fr := by
  rw [State.callTo, State.callTo, apply_ite (State.mapUnread fs fp fr)]
  rfl

theorem State.returnFromCall_mapUnread :
    (s.mapUnread fs fp fr).returnFromCall = s.returnFromCall.mapUnread fs fp fr := by
  obtain ⟨_, _, _, _, _, _, stack, _, _, _, _, _, _, _, _, _⟩ := s
  cases stack <;> rfl

/-- R172, R173: a skip carries the changes on, and a release overwrites the release latch. -/
theorem State.skipIf_autoRelease_mapUnread (taken : Bool) (k : Key) (condition : Bool) :
    AlikeButUnread fs fp fr (.next (((s.mapUnread fs fp fr).skipIf taken).autoRelease k condition))
      (.next ((s.skipIf taken).autoRelease k condition)) := by
  have hmode : ((s.skipIf taken).mapUnread fs fp fr).cfg = (s.skipIf taken).cfg := rfl
  rw [State.skipIf_mapUnread, State.autoRelease, State.autoRelease, hmode]
  cases (s.skipIf taken).cfg.autoRelease && condition with
  | true => exact ⟨fs, id, .inr rfl, .inl rfl, rfl⟩
  | false => exact alikeButUnread_of_carried rfl

/-! ## The instructions that touch a latch -/

theorem exec_skp_mapUnread (x : Reg) :
    AlikeButUnread fs fp fr (exec (.skp x) (s.mapUnread fs fp fr)) (exec (.skp x) s) := by
  rcases keyOperand_cases (s.reg x) with ⟨hout, -⟩ | ⟨k, hk, -⟩
  · rw [exec_skp_of_lt hout]
    exact alikeButUnread_of_carried (exec_skp_of_lt hout)
  · have hmapped : exec (.skp x) (s.mapUnread fs fp fr) = _ := exec_skp (k := k) hk
    rw [hmapped, exec_skp hk]
    exact s.skipIf_autoRelease_mapUnread _ k _

theorem exec_sknp_mapUnread (x : Reg) :
    AlikeButUnread fs fp fr (exec (.sknp x) (s.mapUnread fs fp fr)) (exec (.sknp x) s) := by
  rcases keyOperand_cases (s.reg x) with ⟨hout, -⟩ | ⟨k, hk, -⟩
  · rw [exec_sknp_of_lt hout]
    exact alikeButUnread_of_carried (exec_sknp_of_lt hout)
  · have hmapped : exec (.sknp x) (s.mapUnread fs fp fr) = _ := exec_sknp (k := k) hk
    rw [hmapped, exec_sknp hk]
    exact s.skipIf_autoRelease_mapUnread _ k _

section

variable (hp : fp = id ∨ s.cfg.autoRelease = false) (hr : fr = id ∨ s.cfg.autoRelease = true)
include hp hr

/-- R174: FX0A looks at the latch of its mode alone, and overwrites the other one if it writes it. -/
theorem exec_ldVxK_mapUnread (x : Reg) :
    AlikeButUnread fs fp fr (exec (.ldVxK x) (s.mapUnread fs fp fr)) (exec (.ldVxK x) s) := by
  cases hmode : s.cfg.autoRelease with
  | false =>
    obtain rfl : fr = id := hr.resolve_right (by simp [hmode])
    refine alikeButUnread_of_carried ?_
    cases hlatch : s.lastReleased with
    | none =>
      rw [exec_ldVxK_of_none (s := s) (by rw [hmode]; exact hlatch)]
      exact exec_ldVxK_of_none (by rw [State.mapUnread, hmode]; exact hlatch)
    | some k =>
      rw [exec_ldVxK_of_released hmode hlatch]
      exact exec_ldVxK_of_released hmode hlatch
  | true =>
    obtain rfl : fp = id := hp.resolve_right (by simp [hmode])
    cases hlatch : s.lastPressed with
    | none =>
      rw [exec_ldVxK_of_none (s := s) (by rw [hmode]; exact hlatch)]
      exact alikeButUnread_of_carried (exec_ldVxK_of_none (by rw [State.mapUnread, hmode]; exact hlatch))
    | some k =>
      rw [exec_ldVxK_of_pressed hmode hlatch]
      exact ⟨fs, id, .inr rfl, .inl rfl, exec_ldVxK_of_pressed hmode hlatch⟩

/-! ## Every instruction, and a step -/

theorem exec_mapUnread (i : Instr) : AlikeButUnread fs fp fr (exec i (s.mapUnread fs fp fr)) (exec i s) := by
  cases i with
  | ldStVx x => exact ⟨id, fr, .inl rfl, .inr rfl, rfl⟩
  | skp x => exact exec_skp_mapUnread s x
  | sknp x => exact exec_sknp_mapUnread s x
  | ldVxK x => exact exec_ldVxK_mapUnread s hp hr x
  | ret => exact alikeButUnread_of_carried (congrArg Host.Outcome.next s.returnFromCall_mapUnread)
  | call nnn => exact alikeButUnread_of_carried (congrArg Host.Outcome.next (s.callTo_mapUnread _))
  | seImm _ _ | sneImm _ _ | seReg _ _ _ | sneReg _ _ _ =>
    exact alikeButUnread_of_carried (congrArg Host.Outcome.next (s.skipIf_mapUnread _))
  | drw _ _ _ | ldB _ | ldMemVx _ | ldVxMem _ =>
    refine alikeButUnread_of_carried ?_
    simp only [exec, execDrw, execLdB, execLdMemVx, execLdVxMem, mapNext_guarded]
    rfl
  | _ => exact alikeButUnread_of_carried rfl

/-- The fetch reads neither the sound timer nor a latch. -/
theorem step_mapUnread : AlikeButUnread fs fp fr (step (s.mapUnread fs fp fr)) (step s) := by
  by_cases hpc : s.pc.toNat ≤ 0xFFE
  · rw [step_of_decode hpc rfl, step_of_decode (s := s.mapUnread fs fp fr) hpc rfl]
    exact exec_mapUnread s.beginStep hp hr _
  · have hout : 0xFFE < s.pc.toNat := Nat.not_le.mp hpc
    rw [step_eq_fault s hout]
    exact alikeButUnread_of_carried (step_eq_fault (s.mapUnread fs fp fr) hout)

end

end Sys2Proof.Machine

namespace Sys2Proof

open Machine

/-- Settles O39: each mode's other latch is one that no instruction of the mode looks at; the press latch is carried on, the
release latch carried on or overwritten. -/
theorem otherLatchIsNeverRead : Obligations.OtherLatchIsNeverRead := by
  unfold Obligations.OtherLatchIsNeverRead
  intro s t latch h
  refine ⟨fun hmode => ?_, fun hmode => ?_⟩
  · obtain ⟨fs', fr', hfs, hfr, hstep⟩ := step_mapUnread (fs := id) (fp := fun _ => latch) s (.inr hmode) (.inl rfl)
    obtain rfl : fs' = id := or_self_iff.mp hfs
    obtain rfl : fr' = id := or_self_iff.mp hfr
    rw [h] at hstep
    exact hstep
  · obtain ⟨fs', fr', hfs, -, hstep⟩ := step_mapUnread (fs := id) (fr := fun _ => latch) s (.inl rfl) (.inr hmode)
    obtain rfl : fs' = id := or_self_iff.mp hfs
    rw [h] at hstep
    exact ⟨_, hstep, rfl⟩

/-- Settles O43: a step carries ST on or overwrites it, and looks at it nowhere. -/
theorem soundTimerIsNeverRead : Obligations.SoundTimerIsNeverRead := by
  unfold Obligations.SoundTimerIsNeverRead
  intro s b
  obtain ⟨fs', fr', -, hfr, hstep⟩ := step_mapUnread (fs := fun _ => b) s (.inl rfl) (.inl rfl)
  obtain rfl : fr' = id := or_self_iff.mp hfr
  refine ⟨fun t h => ?_, fun f h => ?_⟩ <;> rw [h] at hstep
  · exact ⟨_, hstep, rfl⟩
  · exact hstep

/-- Settles O9: the fetch starts the report output from NoError, whatever it held. -/
theorem earlierReportHasNoEffect : Obligations.EarlierReportHasNoEffect := by
  unfold Obligations.EarlierReportHasNoEffect
  exact fun s r => rfl

end Sys2Proof

/-! Proofs about jumps, calls and register skips (spec/40_control_flow.md): one instruction at a time, a run of calls or
returns by induction, and the step of a jump to itself. -/

namespace Sys2Proof.Machine

variable (s : State)

/-! ## The meanings behind `exec` -/

theorem exec_jp (nnn : BitVec 12) : exec (.jp nnn) s = .next (s.setPc (addressOperand nnn)) := rfl

theorem exec_jpV0 (nnn : BitVec 12) : exec (.jpV0 nnn) s = .next (s.setPc (offsetTarget nnn (s.reg 0))) := rfl

theorem exec_seReg (x y : Reg) (low : BitVec 4) : exec (.seReg x y low) s = .next (s.skipIf (s.reg x == s.reg y)) := rfl

theorem exec_sneReg (x y : Reg) (low : BitVec 4) : exec (.sneReg x y low) s = .next (s.skipIf (s.reg x != s.reg y)) := rfl

/-- Below 16 entries a CALL answers one entry deeper, without a report. -/
theorem exec_call_of_room {s : State} (h : s.sp < 16) (nnn : BitVec 12) :
    ∃ t, exec (.call nnn) s = .next t ∧ t.sp = s.sp + 1 ∧ t.reportOut = s.reportOut :=
  ⟨_, (exec_call s nnn).trans (congrArg _ (if_pos h)), rfl, rfl⟩

/-- Above the empty stack a RET answers one entry shallower, without a report. -/
theorem exec_ret_of_entry {s : State} (h : 0 < s.sp) :
    ∃ t, exec .ret s = .next t ∧ t.sp + 1 = s.sp ∧ t.reportOut = s.reportOut := by
  rcases s.returnFromCall_cases with ⟨hnil, -⟩ | ⟨top, rest, hcons, hret⟩
  · rw [State.sp, hnil] at h
    exact absurd h (lt_irrefl 0)
  · exact ⟨_, (exec_ret s).trans (congrArg _ hret), by rw [State.sp, State.sp, hcons]; rfl, rfl⟩

/-! ## Runs of instructions -/

theorem execAll_cons {s t : State} {i : Instr} (h : exec i s = .next t) (rest : List Instr) :
    execAll (i :: rest) s = execAll rest t := by
  rw [execAll, h]

theorem execAll_calls (targets : List (BitVec 12)) (h : s.sp + targets.length ≤ 16) :
    ∃ t, execAll (targets.map Instr.call) s = .next t ∧ t.sp = s.sp + targets.length ∧ t.reportOut = s.reportOut := by
  induction targets generalizing s with
  | nil => exact ⟨s, rfl, rfl, rfl⟩
  | cons nnn rest ih =>
    rw [List.length_cons] at h
    obtain ⟨t, hcall, hdepth, hreport⟩ := exec_call_of_room (s := s) (by omega) nnn
    obtain ⟨u, hrest, hdepths, hreports⟩ := ih t (by omega)
    refine ⟨u, (execAll_cons hcall _).trans hrest, ?_, hreports.trans hreport⟩
    rw [hdepths, hdepth, List.length_cons, Nat.add_right_comm, Nat.add_assoc]

theorem execAll_returns (n : Nat) (h : n ≤ s.sp) :
    ∃ t, execAll (List.replicate n Instr.ret) s = .next t ∧ t.sp = s.sp - n ∧ t.reportOut = s.reportOut := by
  induction n generalizing s with
  | zero => exact ⟨s, rfl, rfl, rfl⟩
  | succ n ih =>
    obtain ⟨t, hret, hdepth, hreport⟩ := exec_ret_of_entry (s := s) (by omega)
    obtain ⟨u, hrest, hdepths, hreports⟩ := ih t (by omega)
    exact ⟨u, (execAll_cons hret _).trans hrest, by omega, hreports.trans hreport⟩

end Sys2Proof.Machine

namespace Sys2Proof

open Machine

/-- R76: a word of family 1 is a jump to its low 12 bits. -/
theorem decodeWord_eq_jp {w : Word} {a : Nat} (ha : a < 4096) (hw : w.toNat = 0x1000 + a) :
    ∃ nnn, decodeWord w = .jp nnn ∧ nnn.toNat = a := by
  have hfamily : w.toNat / 4096 = 1 := by omega
  refine ⟨opNNN w, by simp only [decodeWord, opFamily_toNat, hfamily], ?_⟩
  rw [opNNN_toNat]
  omega

/-- Settles O5: the two bytes decode as their word does. -/
theorem stepRunsDecodedInstruction : Obligations.StepRunsDecodedInstruction := by
  unfold Obligations.StepRunsDecodedInstruction
  intro s i hpc hdecode
  have hword : decodeWord s.nextWord = i := congrArg Prod.fst (Except.ok.inj hdecode)
  exact step_of_decode hpc hword

/-- Settles O11: both jumps are one write of pc, and NNN + V0 stays below 2^16. -/
theorem jumpsLoadPc : Obligations.JumpsLoadPc := by
  unfold Obligations.JumpsLoadPc
  exact ⟨fun nnn s => ⟨_, exec_jp s nnn, addressOperand_toNat nnn, rfl⟩,
    fun nnn s => ⟨_, exec_jpV0 s nnn, offsetTarget_toNat nnn _, rfl⟩⟩

/-- Settles O14: by induction on the targets, and on the number of returns; each takes or frees one entry. -/
theorem callsNestToSixteen : Obligations.CallsNestToSixteen := by
  unfold Obligations.CallsNestToSixteen
  exact ⟨execAll_calls, execAll_returns⟩

/-- Settles O16: both skips are `skipIf`, whatever the low nibble. -/
theorem skipsOnRegister : Obligations.SkipsOnRegister := by
  unfold Obligations.SkipsOnRegister
  intro x y low s
  exact ⟨⟨_, exec_seReg s x y low, s.skipIf_frame _, s.skipIf_beq_pc_toNat _ _⟩,
    ⟨_, exec_sneReg s x y low, s.skipIf_frame _, s.skipIf_bne_pc_toNat _ _⟩⟩

/-- Settles O17: the jump's target is the pc that the fetch advanced. -/
theorem jumpToSelfRepeats : Obligations.JumpToSelfRepeats := by
  unfold Obligations.JumpToSelfRepeats
  intro s hpc hword
  obtain ⟨nnn, hdecode, hnnn⟩ := decodeWord_eq_jp (by omega) hword
  have htarget : addressOperand nnn = s.pc := BitVec.eq_of_toNat_eq (by rw [addressOperand_toNat, hnnn])
  rw [step_of_decode hpc hdecode, exec_jp, htarget]
  rfl

end Sys2Proof

/-! Proofs about the arithmetic with a flag, the shifts and the random byte (spec/41_alu.md): two register writes, of which the
later one stands where X = F. -/

namespace Sys2Proof.Machine

variable (s : State) (x : Reg) (a : Byte) (f : Bool)

theorem flagByte_toNat : (flagByte f).toNat = f.toNat := by
  cases f <;> rfl

/-! ## A result and a flag -/

theorem State.reg_setReg_of_ne {s : State} {r q : Reg} {b : Byte} (h : q ≠ r) : (s.setReg r b).reg q = s.reg q := by
  rw [State.reg_setReg, if_neg h.symm]

/-- The result, then the flag: VF is the flag, and VX the result where X is not F. -/
theorem State.result_then_flag (p : Prop) [Decidable p] {t : State}
    (ht : t = (s.setReg x a).setReg vf (flagByte (decide p))) :
    OnlyRegsChanged s t [x, 15] ∧ (t.reg 15).toNat = (if p then 1 else 0) ∧ (x ≠ 15 → t.reg x = a) := by
  subst ht
  have hvf : (15 : Reg) ∈ [x, 15] := List.mem_cons_of_mem x List.mem_cons_self
  refine ⟨((OnlyRegsChanged.refl s _).setReg List.mem_cons_self a).setReg hvf _, ?_, fun hx => ?_⟩
  · change ((State.setReg _ vf _).reg vf).toNat = _
    rw [State.reg_setReg_self, flagByte]
    by_cases hp : p <;> simp [hp]
  · have hne : x ≠ vf := hx
    rw [State.reg_setReg_of_ne hne, State.reg_setReg_self]

/-- The flag, then the result: VX is the result, and VF the flag where X is not F. -/
theorem State.flag_then_result {t : State} (ht : t = (s.setReg vf (flagByte f)).setReg x a) :
    OnlyRegsChanged s t [x, 15] ∧ t.reg x = a ∧ (x ≠ 15 → (t.reg 15).toNat = f.toNat) := by
  subst ht
  have hvf : (15 : Reg) ∈ [x, 15] := List.mem_cons_of_mem x List.mem_cons_self
  refine ⟨((OnlyRegsChanged.refl s _).setReg hvf _).setReg List.mem_cons_self a, State.reg_setReg_self _ x a, fun hx => ?_⟩
  rw [State.reg_setReg_of_ne hx.symm]
  change ((State.setReg _ vf _).reg vf).toNat = _
  rw [State.reg_setReg_self, flagByte_toNat]

/-! ## The bits shifted out -/

theorem shiftedOutRight_toNat (b : Byte) : (shiftedOutRight b).toNat = b.toNat % 2 := by
  rw [shiftedOutRight, BitVec.getLsbD, Nat.toNat_testBit, pow_zero, Nat.div_one]

theorem shiftedOutLeft_toNat (b : Byte) : (shiftedOutLeft b).toNat = b.toNat / 128 := by
  rw [shiftedOutLeft, BitVec.getLsbD, Nat.toNat_testBit]
  omega

/-! ## The meanings behind `exec` -/

variable (y : Reg)

theorem exec_addReg : exec (.addReg x y) s =
    .next ((s.setReg x (s.reg x + s.reg y)).setReg vf (flagByte (carry (s.reg x) (s.reg y)))) := rfl

theorem exec_sub : exec (.sub x y) s =
    .next ((s.setReg x (s.reg x - s.reg y)).setReg vf (flagByte (noBorrow (s.reg x) (s.reg y)))) := rfl

theorem exec_subn : exec (.subn x y) s =
    .next ((s.setReg x (s.reg y - s.reg x)).setReg vf (flagByte (noBorrow (s.reg y) (s.reg x)))) := rfl

theorem exec_shr : exec (.shr x y) s =
    .next ((s.setReg vf (flagByte (shiftedOutRight (s.reg y)))).setReg x (s.reg y >>> 1)) := rfl

theorem exec_shl : exec (.shl x y) s =
    .next ((s.setReg vf (flagByte (shiftedOutLeft (s.reg y)))).setReg x (s.reg y <<< 1)) := rfl

theorem exec_rnd (nn : Byte) : exec (.rnd x nn) s =
    .next (s.consumeDraw.setReg x (Config.randomByte s.draws &&& nn)) := rfl

end Sys2Proof.Machine

namespace Sys2Proof

open Machine

/-- Settles O20: each is the result, then the flag, which is a comparison of the old values as numbers. -/
theorem addAndSubtractSetFlag : Obligations.AddAndSubtractSetFlag := by
  unfold Obligations.AddAndSubtractSetFlag
  intro x y s
  refine ⟨⟨_, exec_addReg s x y, ?_⟩, ⟨_, exec_sub s x y, ?_⟩, ⟨_, exec_subn s x y, ?_⟩⟩
  · obtain ⟨honly, hflag, hresult⟩ := s.result_then_flag x (s.reg x + s.reg y)
      (255 < (s.reg x).toNat + (s.reg y).toNat) rfl
    refine ⟨honly, hflag, fun hx => (congrArg BitVec.toNat (hresult hx)).trans ?_⟩
    exact BitVec.toNat_add _ _
  · obtain ⟨honly, hflag, hresult⟩ := s.result_then_flag x (s.reg x - s.reg y) ((s.reg y).toNat < (s.reg x).toNat) rfl
    refine ⟨honly, hflag, fun hx => (congrArg BitVec.toNat (hresult hx)).trans ?_⟩
    bv_omega
  · obtain ⟨honly, hflag, hresult⟩ := s.result_then_flag x (s.reg y - s.reg x) ((s.reg x).toNat < (s.reg y).toNat) rfl
    refine ⟨honly, hflag, fun hx => (congrArg BitVec.toNat (hresult hx)).trans ?_⟩
    bv_omega

/-- Settles O21: each is the flag, then the shifted value of VY. -/
theorem shiftsTakeVy : Obligations.ShiftsTakeVy := by
  unfold Obligations.ShiftsTakeVy
  intro x y s
  refine ⟨⟨_, exec_shr s x y, ?_⟩, ⟨_, exec_shl s x y, ?_⟩⟩
  · obtain ⟨honly, hresult, hflag⟩ := s.flag_then_result x (s.reg y >>> 1) (shiftedOutRight (s.reg y)) rfl
    refine ⟨honly, (congrArg BitVec.toNat hresult).trans ?_, fun hx => (hflag hx).trans (shiftedOutRight_toNat _)⟩
    rw [BitVec.toNat_ushiftRight, Nat.shiftRight_eq_div_pow, pow_one]
  · obtain ⟨honly, hresult, hflag⟩ := s.flag_then_result x (s.reg y <<< 1) (shiftedOutLeft (s.reg y)) rfl
    refine ⟨honly, (congrArg BitVec.toNat hresult).trans ?_, fun hx => (hflag hx).trans (shiftedOutLeft_toNat _)⟩
    rw [BitVec.toNat_shiftLeft, Nat.shiftLeft_eq, pow_one]

/-- Settles O22: the one register write is the draw masked, and the draw counter moves on. -/
theorem randomByteIsMasked : Obligations.RandomByteIsMasked := by
  unfold Obligations.RandomByteIsMasked
  intro x nn s
  refine ⟨_, exec_rnd s x nn, fun k => ?_, fun r hr => State.reg_setReg_of_ne hr, rfl, rfl⟩
  rw [State.reg_setReg_self, BitVec.getLsbD_and]

end Sys2Proof

/-! Proofs about memory (spec/20_memory.md, spec/42_index_memory.md): a store at I is read back at its effective addresses, by
a load or by the next fetch, and the canonical form lists every memory in one way. -/

namespace Sys2Proof.Machine

/-! ## Canonical memories -/

theorem Memory.mem_of_find {m : Memory} {a : Nat} {b : Byte} (h : Memory.find m a = some b) : (a, b) ∈ m := by
  induction m with
  | nil => cases h
  | cons e rest ih =>
    rw [Memory.find] at h
    split at h
    next hkey => cases h; cases hkey; exact List.mem_cons_self
    next => exact List.mem_cons_of_mem _ (ih h)

section

variable {boot : Nat → Byte} {m n : Memory}

/-- In canonical form a listed byte lies within memory and is not the boot byte. -/
theorem Memory.find_of_wf (hm : Memory.wf boot m = true) {a : Nat} {b : Byte} (h : Memory.find m a = some b) :
    a < 4096 ∧ b ≠ boot a := by
  simp only [Memory.wf, Bool.and_eq_true, List.all_eq_true, decide_eq_true_eq, bne_iff_ne] at hm
  obtain ⟨-, hentries⟩ := hm
  exact hentries _ (Memory.mem_of_find h)

/-- In canonical form, what is listed at an address can be told from what it reads as. -/
theorem Memory.find_eq_some_iff (hm : Memory.wf boot m = true) {a : Nat} {b : Byte} :
    Memory.find m a = some b ↔ a < 4096 ∧ b ≠ boot a ∧ Memory.read boot m a = b := by
  rw [Memory.read]
  constructor
  · intro h
    obtain ⟨ha, hb⟩ := Memory.find_of_wf hm h
    exact ⟨ha, hb, by rw [h]; rfl⟩
  · rintro ⟨-, hb, hread⟩
    cases hfind : Memory.find m a with
    | none =>
      rw [hfind] at hread
      exact absurd hread.symm hb
    | some c =>
      rw [hfind] at hread
      exact congrArg some hread

theorem Memory.find_congr (hm : Memory.wf boot m = true) (hn : Memory.wf boot n = true)
    (hread : ∀ a, a < 4096 → Memory.read boot m a = Memory.read boot n a) (a : Nat) :
    Memory.find m a = Memory.find n a := by
  refine Option.ext fun b => ?_
  rw [Memory.find_eq_some_iff hm, Memory.find_eq_some_iff hn]
  exact and_congr_right fun ha => by rw [hread a ha]

end

section

variable {low k : Nat} {b : Byte} {rest : Memory}

theorem Memory.find_cons_self : Memory.find ((k, b) :: rest) k = some b := if_pos rfl

/-- The addresses after the first rise from it. -/
theorem Memory.rising_tail (h : Memory.rising low ((k, b) :: rest) = true) : Memory.rising (k + 1) rest = true :=
  ((Bool.and_eq_true ..).mp h).2

/-- The first address of a rising list is its least. -/
theorem Memory.le_of_find_cons (h : Memory.rising low ((k, b) :: rest) = true) {a : Nat} {c : Byte}
    (hfind : Memory.find ((k, b) :: rest) a = some c) : k ≤ a := by
  rw [Memory.find] at hfind
  split at hfind
  next hkey => exact hkey.le
  next =>
    by_contra hlt
    rw [Memory.find_below (Memory.rising_tail h) (by omega)] at hfind
    cases hfind

/-- What a rising list lists after its first entry. -/
theorem Memory.find_tail (h : Memory.rising low ((k, b) :: rest) = true) (a : Nat) :
    Memory.find rest a = if k = a then none else Memory.find ((k, b) :: rest) a := by
  split
  next hkey => exact Memory.find_below (Memory.rising_tail h) (by omega)
  next hkey => rw [Memory.find, if_neg hkey]

end

/-- A list of rising addresses is determined by what it lists at each address. -/
theorem Memory.eq_of_find_eq {m n : Memory} {low : Nat} (hm : Memory.rising low m = true)
    (hn : Memory.rising low n = true) (hfind : ∀ a, Memory.find m a = Memory.find n a) : m = n := by
  induction m generalizing n low with
  | nil =>
    cases n with
    | nil => rfl
    | cons e rest => exact absurd ((hfind e.1).trans Memory.find_cons_self) nofun
  | cons e rest ih =>
    cases n with
    | nil => exact absurd ((hfind e.1).symm.trans Memory.find_cons_self) nofun
    | cons e' rest' =>
      obtain ⟨k, b⟩ := e
      obtain ⟨k', b'⟩ := e'
      obtain rfl : k = k' := le_antisymm (Memory.le_of_find_cons hm ((hfind k').trans Memory.find_cons_self))
        (Memory.le_of_find_cons hn ((hfind k).symm.trans Memory.find_cons_self))
      obtain rfl : b = b' := Option.some.inj
        (Memory.find_cons_self.symm.trans ((hfind k).trans Memory.find_cons_self))
      refine congrArg _ (ih (Memory.rising_tail hm) (Memory.rising_tail hn) fun a => ?_)
      rw [Memory.find_tail hm, Memory.find_tail hn, hfind a]

/-! ## A store at I, read back -/

section

variable {s : State} {bytes : List Byte} {k c : Nat}

theorem State.byteAt_storeBytes_effective (hk : k < bytes.length) :
    (s.storeBytes (s.effectiveAddress 0) bytes).byteAt (s.effectiveAddress k) = bytes[k] :=
  State.byteAt_storeBytes_add (a := s.effectiveAddress 0) hk

theorem State.byteAt_storeBytes_other (hc : ∀ k, k < bytes.length → c ≠ s.effectiveAddress k) :
    (s.storeBytes (s.effectiveAddress 0) bytes).byteAt c = s.byteAt c := by
  refine State.byteAt_storeBytes_outside ?_
  by_contra hinside
  have hother := hc (c - s.i.toNat)
  simp only [State.effectiveAddress] at hother hinside
  omega

/-- R145: byte `j` of a store of V0..VX is Vj. -/
theorem State.byteAt_storeRegisters {x j : Reg} (hj : j ≤ x) :
    (s.storeBytes (s.effectiveAddress 0) (s.registersUpTo x)).byteAt (s.effectiveAddress j.val) = s.reg j := by
  have hlt : j.val < (s.registersUpTo x).length := by
    rw [registersUpTo_length]
    exact Nat.lt_succ_of_le hj
  rw [State.byteAt_storeBytes_effective hlt, registersUpTo_getElem]

end

/-! ## The meanings behind `exec`, in range -/

variable {s : State} {x : Reg}

theorem exec_ldB (h : s.i.toNat + 2 ≤ 4095) : exec (.ldB x) s =
    .next (s.storeBytes (s.effectiveAddress 0) (decimalDigits (s.reg x))) := (execLdB_next x).mpr ⟨h, rfl⟩

theorem exec_ldMemVx (h : s.i.toNat + x.val ≤ 4095) : exec (.ldMemVx x) s =
    .next (s.storeBytes (s.effectiveAddress 0) (s.registersUpTo x)) := (execLdMemVx_next x).mpr ⟨h, rfl⟩

theorem exec_ldVxMem (h : s.i.toNat + x.val ≤ 4095) : exec (.ldVxMem x) s =
    .next (s.loadRegs (s.effectiveAddress 0) x) := (execLdVxMem_next x).mpr ⟨h, rfl⟩

end Sys2Proof.Machine

namespace Sys2Proof

open Machine

/-- Settles O24: the store of the digits, read back byte by byte. -/
theorem digitsAreStored : Obligations.DigitsAreStored := by
  unfold Obligations.DigitsAreStored
  intro x s hrange
  have hread : ∀ k (hk : k < 3), (s.storeBytes (s.effectiveAddress 0) (decimalDigits (s.reg x))).byteAt
      (s.effectiveAddress k) = (decimalDigits (s.reg x))[k]'hk := fun k hk => State.byteAt_storeBytes_effective hk
  refine ⟨_, exec_ldB hrange, ?_, ?_, ?_, fun a ha => State.byteAt_storeBytes_other ha, s.storeBytes_frame _ _⟩
  · rw [hread 0 (by decide)]
    exact (BitVec.toNat_ofNat _ 8).trans (Nat.mod_eq_of_lt (by omega))
  · rw [hread 1 (by decide)]
    exact (BitVec.toNat_ofNat _ 8).trans (Nat.mod_eq_of_lt (by omega))
  · rw [hread 2 (by decide)]
    exact (BitVec.toNat_ofNat _ 8).trans (Nat.mod_eq_of_lt (by omega))

/-- Settles O25: the store of V0..VX, read back byte by byte. -/
theorem registersAreStored : Obligations.RegistersAreStored := by
  unfold Obligations.RegistersAreStored
  intro x s hrange
  refine ⟨_, exec_ldMemVx hrange, fun j hj => State.byteAt_storeRegisters hj, fun a ha => ?_, s.storeBytes_frame _ _⟩
  refine State.byteAt_storeBytes_other fun k hk => ?_
  rw [registersUpTo_length] at hk
  exact ha ⟨k, by omega⟩ (Nat.le_of_lt_succ hk)

/-- Settles O26: a load of registers reads memory up to X and keeps the registers above. -/
theorem registersAreLoaded : Obligations.RegistersAreLoaded := by
  unfold Obligations.RegistersAreLoaded
  intro x s hrange
  refine ⟨_, exec_ldVxMem hrange, fun j hj => ?_, fun j hj => ?_, fun a => s.byteAt_loadRegs _ x a,
    s.loadRegs_frame _ x⟩
  · rw [State.reg_loadRegs, if_pos hj]
    rfl
  · rw [State.reg_loadRegs, if_neg (not_le.mpr hj)]

/-- Settles O27: the load reads back what the store left, which no register file hides. -/
theorem storeThenLoadRestoresRegisters : Obligations.StoreThenLoadRestoresRegisters := by
  unfold Obligations.StoreThenLoadRestoresRegisters
  intro x s t v h
  obtain ⟨hrange, rfl⟩ := (execLdMemVx_next x).mp h
  refine ⟨_, exec_ldVxMem hrange, fun j hj => ?_⟩
  rw [State.reg_loadRegs, if_pos hj]
  exact (State.byteAt_congr rfl rfl _).trans (State.byteAt_storeRegisters hj)

/-- Settles O28: the next pc is the advanced one, and both its bytes lie among those stored. -/
theorem storedBytesAreFetchedNext : Obligations.StoredBytesAreFetchedNext := by
  unfold Obligations.StoredBytesAreFetchedNext
  intro s x p q hpc hdecode hrange hp hq hqx
  have hpx : p ≤ x := by rw [Fin.le_def] at hqx ⊢; omega
  have hfirst : s.pc.toNat + 2 = s.beginStep.effectiveAddress p.val := hp.symm
  have hsecond : s.pc.toNat + 2 + 1 = s.beginStep.effectiveAddress q.val := hq.symm
  refine ⟨_, (step_of_decode hpc hdecode).trans (exec_ldMemVx (s := s.beginStep) hrange), ?_⟩
  rw [fetchWord_eq_some, State.storeBytes_pc, beginStep_pc_toNat s hpc, hsecond, hfirst,
    State.byteAt_storeRegisters hpx, State.byteAt_storeRegisters hqx]
  refine ⟨?_, rfl⟩
  rw [← hfirst]
  rw [Fin.le_def] at hqx
  omega

/-- Settles O30: in canonical form equal reads are equal listings, and a rising list is determined by them. -/
theorem equalReadsAreEqualMemories : Obligations.EqualReadsAreEqualMemories := by
  unfold Obligations.EqualReadsAreEqualMemories
  intro boot m n hm hn hread
  have hrising : ∀ {l : Memory}, Memory.wf boot l = true → Memory.rising 0 l = true := fun h =>
    ((Bool.and_eq_true ..).mp h).1
  exact Memory.eq_of_find_eq (hrising hm) (hrising hn) (Memory.find_congr hm hn hread)

end Sys2Proof

/-! Proofs about one draw and the display read (spec/43_display.md): a draw answers the frame buffer that R162's loops leave and
their collision; the read joins the rows, each of 64 cells. -/

namespace Sys2Proof.Machine

/-! ## The display read -/

/-- Cell `x` of row `y` of rows of equal length stands at `y * w + x` of the rows joined. -/
theorem getElem?_flatMap_of_length_eq {α β : Type} {f : α → List β} {w : Nat} (rows : List α)
    (hlength : ∀ row ∈ rows, (f row).length = w) {x y : Nat} (hx : x < w) :
    (rows.flatMap f)[y * w + x]? = rows[y]?.bind fun row => (f row)[x]? := by
  induction rows generalizing y with
  | nil => rfl
  | cons row rest ih =>
    obtain ⟨hrow, hrest⟩ := List.forall_mem_cons.mp hlength
    rw [List.flatMap_cons, List.getElem?_append, hrow]
    cases y with
    | zero => simp [hx]
    | succ y =>
      have hskip : (y + 1) * w + x = w + (y * w + x) := by rw [Nat.succ_mul]; omega
      rw [hskip, if_neg (by omega), Nat.add_sub_cancel_left, ih hrest, List.getElem?_cons_succ]

theorem State.displayRead_length (s : State) : s.displayRead.length = 2048 := by
  rw [State.displayRead, List.length_flatMap]
  simp

theorem State.displayRead_getElem? (s : State) {x y : Nat} (hx : x < 64) (hy : y < 32) :
    s.displayRead[y * 64 + x]? = some (s.pixel x y) := by
  rw [State.displayRead, getElem?_flatMap_of_length_eq _ (fun row _ => row.length_toList) hx]
  simp [State.pixel, pixelAt, hx, hy]

/-! ## The flag of a draw -/

theorem flagByte_eq_zero_or_one (f : Bool) : flagByte f = 0 ∨ flagByte f = 1 := by
  cases f
  · exact .inl rfl
  · exact .inr rfl

end Sys2Proof.Machine

namespace Sys2Proof

open Machine

/-- Settles O32: the cells that R162's loops toggle, and their collision, are those of the sprite's visible set bits. -/
theorem drawTogglesVisibleBits : Obligations.DrawTogglesVisibleBits := by
  unfold Obligations.DrawTogglesVisibleBits
  intro x y n s hrange
  obtain ⟨t, h⟩ : ∃ t, exec (.drw x y n) s = .next t := ⟨_, exec_drw_next.mpr ⟨hrange, rfl⟩⟩
  obtain ⟨-, -, hregs⟩ := exec_drw_frame h
  refine ⟨t, h, fun u w hu hw => ?_, ?_, (exec_drw_flag h).trans State.collision_drawn, hregs, ?_⟩
  · rw [State.pixel, exec_drw_disp h]
    exact State.pixelAt_drawn hu hw
  · obtain ⟨-, rfl⟩ := exec_drw_next.mp h
    change (State.setReg _ vf _).reg vf = 0 ∨ (State.setReg _ vf _).reg vf = 1
    rw [State.reg_setReg_self]
    exact flagByte_eq_zero_or_one _
  · obtain ⟨-, rfl⟩ := exec_drw_next.mp h
    rfl

/-- Settles O34: 32 rows of 64 cells joined. -/
theorem displayReadIsRowMajor : Obligations.DisplayReadIsRowMajor := by
  unfold Obligations.DisplayReadIsRowMajor
  exact fun s => ⟨s.displayRead_length, fun x y hx hy => s.displayRead_getElem? hx hy, rfl⟩

end Sys2Proof

/-! Proofs about what the host does (spec/70_reset_and_hazards.md, spec/60_exceptions.md section 3): Reset, the loads that come
too late, the first step of a loaded ROM, and what the other transactions leave alone. -/

namespace Sys2Proof.Machine

variable {s t : State} {c : Config}

/-! ## Reset -/

theorem perform_reset (hvalid : c.valid = true) (s : State) :
    perform (.reset c) s = .next { State.resetWith c with draws := s.draws } := if_pos hvalid

theorem perform_reset_of_invalid (hinvalid : ¬ c.valid = true) (s : State) :
    perform (.reset c) s = .fault .badConfiguration := if_neg hinvalid

theorem State.resetWith_reg (c : Config) (r : Reg) : (State.resetWith c).reg r = 0 :=
  Vector.getElem_replicate r.isLt

theorem State.resetWith_key (c : Config) (k : Key) : (State.resetWith c).key k = false :=
  Vector.getElem_replicate k.isLt

/-- R36: memory at Reset reads as the boot image. -/
theorem State.resetWith_byteAt (c : Config) (a : Nat) : (State.resetWith c).byteAt a = bootByte c a := rfl

theorem bootByte_font (c : Config) {j : Nat} (hj : j < 80) : bootByte c (c.fontStart.toNat + j) = c.fontData[j] := by
  have hinside : c.fontStart.toNat ≤ c.fontStart.toNat + j ∧ c.fontStart.toNat + j < c.fontStart.toNat + 80 := by omega
  simp only [bootByte, dif_pos hinside, Nat.add_sub_cancel_left]

theorem bootByte_outside (c : Config) {a : Nat} (ha : a < c.fontStart.toNat ∨ c.fontStart.toNat + 80 ≤ a) :
    bootByte c a = 0 :=
  dif_neg (by omega)

/-! ## Loads -/

theorem perform_loadFont_of_started (h : s.started = true) (bytes : List Byte) :
    perform (.loadFont bytes) s = .fault .loadAfterRun := if_pos h

theorem perform_loadRom_of_started (h : s.started = true) (bytes : List Byte) :
    perform (.loadRom bytes) s = .fault .loadAfterRun := if_pos h

theorem State.loadFontBytes_cfg (s : State) (bytes : List Byte) : (s.loadFontBytes bytes).2.cfg = s.cfg := by
  unfold State.loadFontBytes
  split <;> rfl

theorem State.loadRomBytes_cfg (s : State) (bytes : List Byte) : (s.loadRomBytes bytes).2.cfg = s.cfg := by
  unfold State.loadRomBytes
  split <;> rfl

/-- R237: a ROM of two bytes or more that is loaded into the reset state is what the next fetch reads. -/
theorem State.nextWord_of_loadedRom {high low : Byte} {rest : List Byte} (hs : s.pc.toNat = s.cfg.romStart.toNat)
    (ht : t = { s.storeBytes s.cfg.romStart.toNat (high :: low :: rest) with romSize := (high :: low :: rest).length }) :
    t.nextWord = wordOfBytes high low := by
  have hread : ∀ a, t.byteAt a = (s.storeBytes s.cfg.romStart.toNat (high :: low :: rest)).byteAt a := by
    subst ht
    exact State.byteAt_congr rfl rfl
  have hpc : t.pc.toNat = s.cfg.romStart.toNat := by rw [ht, ← hs]; rfl
  have hhigh := State.byteAt_storeBytes_add (s := s) (a := s.cfg.romStart.toNat) (j := 0)
    (bytes := high :: low :: rest) (by simp)
  have hlow := State.byteAt_storeBytes_add (s := s) (a := s.cfg.romStart.toNat) (j := 1)
    (bytes := high :: low :: rest) (by simp)
  rw [State.nextWord, hpc, hread, hread, hlow]
  exact congrArg (wordOfBytes · low) hhigh

/-! ## Key events -/

/-- R170: a key press changes at most what the host may change between two steps. -/
theorem State.keyPress_frame (s : State) (k : Byte) :
    { s.keyPress k with dt := s.dt, st := s.st, keys := s.keys, lastPressed := s.lastPressed,
                        lastReleased := s.lastReleased, started := s.started } = s := by
  unfold State.keyPress
  split <;> rfl

/-- R171: and so does a key release. -/
theorem State.keyRelease_frame (s : State) (k : Byte) :
    { s.keyRelease k with dt := s.dt, st := s.st, keys := s.keys, lastPressed := s.lastPressed,
                          lastReleased := s.lastReleased, started := s.started } = s := by
  unfold State.keyRelease
  split <;> rfl

/-! ## The configuration -/

theorem step_cfg (h : step s = .next t) : t.cfg = s.cfg :=
  by_contra fun hne => step_writtenBy (p := .configuration) h (by simp) hne

end Sys2Proof.Machine

namespace Sys2Proof

open Machine

/-- Settles O45: each of these events answers with its one operation, framed. -/
theorem hostEventsLeaveProgramState : Obligations.HostEventsLeaveProgramState := by
  unfold Obligations.HostEventsLeaveProgramState
  rintro e s (rfl | ⟨k, rfl⟩ | ⟨k, rfl⟩ | rfl)
  · exact ⟨_, rfl, rfl⟩
  · exact ⟨_, rfl, s.keyPress_frame k⟩
  · exact ⟨_, rfl, s.keyRelease_frame k⟩
  · exact ⟨_, rfl, rfl⟩

/-- Settles O46: a step writes no configuration, and no event or load does. -/
theorem configurationIsConstant : Obligations.ConfigurationIsConstant := by
  unfold Obligations.ConfigurationIsConstant
  intro e s t hreset h
  cases e with
  | step => exact step_cfg h
  | tick | displayRead => cases h; rfl
  | keyPress k => cases h; exact (congrArg State.cfg (s.keyPress_frame k) :)
  | keyRelease k => cases h; exact (congrArg State.cfg (s.keyRelease_frame k) :)
  | loadFont bytes =>
    cases hrun : s.started with
    | true => exact absurd ((perform_loadFont_of_started hrun bytes).symm.trans h) nofun
    | false =>
      obtain rfl := Host.Outcome.next.inj ((perform_loadFont_of_body hrun rfl).symm.trans h)
      exact s.loadFontBytes_cfg bytes
  | loadRom bytes =>
    cases hrun : s.started with
    | true => exact absurd ((perform_loadRom_of_started hrun bytes).symm.trans h) nofun
    | false =>
      obtain rfl := Host.Outcome.next.inj ((perform_loadRom_of_body hrun rfl).symm.trans h)
      exact s.loadRomBytes_cfg bytes
  | reset c => exact absurd rfl (hreset c)

/-- Settles O50: Reset answers the reset state, read piece by piece. -/
theorem resetSetsEveryPiece : Obligations.ResetSetsEveryPiece := by
  unfold Obligations.ResetSetsEveryPiece
  intro c s hvalid
  exact ⟨_, perform_reset hvalid s, rfl, State.resetWith_reg c, rfl, addressOperand_toNat c.romStart, rfl, rfl, rfl,
    State.resetWith_key c, rfl, rfl, pixelAt_blankDisplay, fun j hj => bootByte_font c hj,
    fun a ha => bootByte_outside c ha, rfl, rfl, rfl⟩

/-- Settles O53: the loads and Reset check first, and a step and a tick both set the mark. -/
theorem lateLoadsAndBadResetsFault : Obligations.LateLoadsAndBadResetsFault := by
  unfold Obligations.LateLoadsAndBadResetsFault
  refine ⟨fun bytes s h => ⟨perform_loadFont_of_started h bytes, perform_loadRom_of_started h bytes⟩,
    fun c s hout => perform_reset_of_invalid ?_ s, ?_⟩
  · rw [Config.valid_iff]
    omega
  · rintro s t (h | h)
    · exact step_started h
    · cases h; rfl

/-- Settles O54: pc is `ROM_START`, and the load put the ROM's first two bytes there. -/
theorem firstStepRunsFirstRomWord : Obligations.FirstStepRunsFirstRomWord := by
  unfold Obligations.FirstStepRunsFirstRomWord
  intro c high low rest hvalid hfits
  have hbody := State.loadRomBytes_of_le (s := State.resetWith c) hfits
  have hpc : (State.resetWith c).pc.toNat = c.romStart.toNat := addressOperand_toNat c.romStart
  refine ⟨_, perform_loadRom_of_body rfl hbody,
    step_of_decode ?_ (congrArg decodeWord (State.nextWord_of_loadedRom hpc rfl))⟩
  change (State.resetWith c).pc.toNat ≤ 0xFFE
  simp only [List.length_cons] at hfits
  omega

end Sys2Proof
